-- ==== Sys2Proof/Word.lean ====
section
/-! DEFINITION. The word types of the QOI opcode dispatcher (spec/00_scope.md rule R7: the widths). -/

namespace Sys2Proof

/-- One payload byte, and one colour channel (`CHANNEL_BITS` = 8, R7). -/
abbrev Byte := BitVec 8

/-- A cache index: 64 slots, 6 bits (R7, R22). -/
abbrev Slot := BitVec 6

/-- A header dimension: 32 bits, unsigned (R7, R28). -/
abbrev Dim := BitVec 32

/-- The pixel counter and the pixel target: `COUNT_BITS` = 64, unsigned (R7, R26, R27). -/
abbrev Count := BitVec 64

end Sys2Proof
end

