-- ==== Sys2Proof/Syntax.lean ====
section
/-! DEFINITION. The instructions: one constructor per row of spec/opcode_table.json, with the operands of
spec/30_encoding.md rules R89 and R94 (a delta is the integer the opcode stands for, not the biased field). -/

namespace Sys2Proof

/-- The QOI opcodes and the END marker. -/
inductive Instr where
  /-- `RGB r, g, b` (R82, R130). -/
  | rgb (r g b : Byte)
  /-- `RGBA r, g, b, a` (R83, R131). -/
  | rgba (r g b a : Byte)
  /-- `INDEX i` (R84, R140). -/
  | index (idx : Slot)
  /-- `DIFF dr, dg, db`, each in -2..+1 (R85, R150). -/
  | diff (dr dg db : Int)
  /-- `LUMA dg, drg, dbg`, `dg` in -32..+31 and the others in -8..+7 (R86, R151). -/
  | luma (dg drg dbg : Int)
  /-- `RUN k`, `k` in 1..62 (R87, R170). -/
  | run (k : Nat)
  /-- `END`, the 8-byte marker (R88, R181). -/
  | endMarker
  deriving DecidableEq, Repr

end Sys2Proof
end

