-- ==== Sys2Proof/WellFormed.lean ====
section
/-! DEFINITION. Which operands an instruction can have (spec/30_encoding.md rules R89 and R94: "An assembler must
refuse an operand outside the stated range"). -/

namespace Sys2Proof

/-- `lo <= d <= hi`, as a check. -/
def inRange (lo hi d : Int) : Bool := decide (lo ≤ d) && decide (d ≤ hi)

/-- The operand ranges of R94; channel bytes and slots are in range by their types. -/
def Instr.wellFormed : Instr → Bool
  | .rgb _ _ _ => true
  | .rgba _ _ _ _ => true
  | .index _ => true
  | .diff dr dg db => inRange (-2) 1 dr && inRange (-2) 1 dg && inRange (-2) 1 db
  | .luma dg drg dbg => inRange (-32) 31 dg && inRange (-8) 7 drg && inRange (-8) 7 dbg
  | .run k => decide (1 ≤ k) && decide (k ≤ 62)
  | .endMarker => true

end Sys2Proof
end

