-- ==== Sys2Proof/Decode.lean ====
section
/-! DEFINITION. Decoding and encoding (spec/30_encoding.md). A tag byte is read in one of two places: while
`count < target` the priority decode of R81 reads it as an opcode; at the completion check the only thing recognised
is the full END marker (R88, R181, R184). So there are two decoders, `decodeOpcode` and `decodeMarker`. -/

namespace Sys2Proof

/-- The six opcodes the priority decode selects among (R81). -/
inductive Opcode where
  | rgb | rgba | index | diff | luma | run
  deriving DecidableEq, Repr

/-- Why `decodeOpcode` gives no instruction. There is no illegal tag (R90), so bytes can only be missing. -/
inductive OpcodeReject where
  /-- There is no tag byte (R103). -/
  | exhausted
  /-- The tag is there and an operand byte is missing (R105). -/
  | truncated
  deriving DecidableEq, Repr

/-- Why `decodeMarker` gives no instruction. -/
inductive MarkerReject where
  /-- The bytes do not start with a full END marker (R181, R183). -/
  | notMarker
  deriving DecidableEq, Repr

/-- `t[lo+w-1:lo]`, an unsigned field of a byte (R8). -/
def field (t : Byte) (lo w : Nat) : BitVec w := t.extractLsb' lo w

/-- `zext(f) - bias`, the integer a biased field stands for (R9, R89). -/
def unbias {w : Nat} (bias : Nat) (f : BitVec w) : Int := (f.toNat : Int) - (bias : Int)

/-- The field that stands for the delta `d` (R94: `d + bias`). -/
def rebias (w : Nat) (b : Nat) (d : Int) : BitVec w := BitVec.ofNat w (d + (b : Int)).toNat

/-- The priority decode of R81: the first pattern that matches wins. The last line is RUN, since only tags with
top bits `11` are left there. -/
def classify (t : Byte) : Opcode :=
  if t = 0b11111110#8 then .rgb
  else if t = 0b11111111#8 then .rgba
  else if field t 6 2 = 0b00#2 then .index
  else if field t 6 2 = 0b01#2 then .diff
  else if field t 6 2 = 0b10#2 then .luma
  else .run

/-- `Length(t)`: the opcode's length in bytes, from the tag alone (R92). -/
def tagLength (t : Byte) : Nat :=
  if t = 0xFE#8 then 4
  else if t = 0xFF#8 then 5
  else if field t 6 2 = 0b10#2 then 2
  else 1

/-- The 8 bytes of the END marker (R88). -/
def endMarkerBytes : List Byte := [0x00, 0x00, 0x00, 0x00, 0x00, 0x00, 0x00, 0x01]

/-- The opcode at the front of `bs` (R81 to R87, R89). Bytes behind it are not looked at. -/
def decodeOpcode : List Byte → Except OpcodeReject Instr
  | [] => .error .exhausted
  | t :: rest =>
    match classify t with
    | .rgb =>
      match rest with
      | r :: g :: b :: _ => .ok (.rgb r g b)
      | _ => .error .truncated
    | .rgba =>
      match rest with
      | r :: g :: b :: a :: _ => .ok (.rgba r g b a)
      | _ => .error .truncated
    | .index => .ok (.index (field t 0 6))
    | .diff => .ok (.diff (unbias 2 (field t 4 2)) (unbias 2 (field t 2 2)) (unbias 2 (field t 0 2)))
    | .luma =>
      match rest with
      | u :: _ => .ok (.luma (unbias 32 (field t 0 6)) (unbias 8 (field u 4 4)) (unbias 8 (field u 0 4)))
      | [] => .error .truncated
    | .run => .ok (.run ((field t 0 6).toNat + 1))

/-- The END marker at the front of `bs` (R88, R181). -/
def decodeMarker (bs : List Byte) : Except MarkerReject Instr :=
  if bs.take 8 = endMarkerBytes then .ok .endMarker else .error .notMarker

/-- How many bytes the instruction has (R80). -/
def Instr.length : Instr → Nat
  | .rgb _ _ _ => 4
  | .rgba _ _ _ _ => 5
  | .index _ => 1
  | .diff _ _ _ => 1
  | .luma _ _ _ => 2
  | .run _ => 1
  | .endMarker => 8

/-- The bytes of an instruction, in payload order (R82 to R88; R94, column "bytes"). -/
def encode : Instr → List Byte
  | .rgb r g b => [0xFE, r, g, b]
  | .rgba r g b a => [0xFF, r, g, b, a]
  | .index i => [0b00#2 ++ i]
  | .diff dr dg db => [0b01#2 ++ rebias 2 2 dr ++ rebias 2 2 dg ++ rebias 2 2 db]
  | .luma dg drg dbg => [0b10#2 ++ rebias 6 32 dg, rebias 4 8 drg ++ rebias 4 8 dbg]
  | .run k => [0b11#2 ++ BitVec.ofNat 6 (k - 1)]
  | .endMarker => endMarkerBytes

/-- One line of a program in the assembler syntax of R94, without its header line. -/
inductive AsmLine where
  /-- A mnemonic line. -/
  | instr (i : Instr)
  /-- `.byte v, ...`: raw bytes. -/
  | bytes (bs : List Byte)
  deriving DecidableEq, Repr

/-- The text of an instruction (R94, column "syntax"). -/
def Instr.asm : Instr → String
  | .rgb r g b => "RGB " ++ toString r.toNat ++ ", " ++ toString g.toNat ++ ", " ++ toString b.toNat
  | .rgba r g b a =>
    "RGBA " ++ toString r.toNat ++ ", " ++ toString g.toNat ++ ", " ++ toString b.toNat ++ ", " ++ toString a.toNat
  | .index i => "INDEX " ++ toString i.toNat
  | .diff dr dg db => "DIFF " ++ toString dr ++ ", " ++ toString dg ++ ", " ++ toString db
  | .luma dg drg dbg => "LUMA " ++ toString dg ++ ", " ++ toString drg ++ ", " ++ toString dbg
  | .run k => "RUN " ++ toString k
  | .endMarker => "END"

/-- The bytes of one line; an operand outside its range is refused, never wrapped (R94). -/
def assembleLine : AsmLine → Option (List Byte)
  | .instr i => if i.wellFormed then some (encode i) else none
  | .bytes bs => some bs

/-- The payload of a program (R94); one bad line refuses the program. -/
def assemble : List AsmLine → Option (List Byte)
  | [] => some []
  | l :: ls =>
    match assembleLine l, assemble ls with
    | some bs, some rest => some (bs ++ rest)
    | _, _ => none

/-- The 8 bytes (the longest instruction) of a table word: byte `i` is bits `8i+7..8i`; bits from `nbits` up are 0. -/
def tableBytes (nbits w : Nat) : List Byte :=
  (List.range 8).map fun i => BitVec.ofNat 8 ((w % 2 ^ nbits) >>> (8 * i))

/-- The instruction a table word holds. Only the END row has the marker's 8 bytes; it is read as the completion
check reads it, every other word as the priority decode reads it. -/
def decodeTableWord (nbits w : Nat) : Option Instr :=
  match decodeMarker (tableBytes nbits w) with
  | .ok i => some i
  | .error .notMarker =>
    match decodeOpcode (tableBytes nbits w) with
    | .ok i => some i
    | .error .exhausted => none
    | .error .truncated => none

end Sys2Proof
end

