-- ==== Sys2Proof/Config.lean ====
section
/-! DEFINITION. The parameters the spec leaves open (spec/00_scope.md rule R7). They are fixed for a machine;
`State` carries them in the field `config`, which no step and no host action writes, so that a statement over all
states is a statement for every value of every parameter (notes/assumptions/4.md, 5.md, 9.md).
`BUS_PROTOCOL` and the RUN emission rate are not modelled (R7, R251). -/

namespace Sys2Proof

/-- `TRAILING_POLICY` (R7, R183): what bytes after the last pixel do that are not a full END marker. -/
inductive TrailingPolicy where
  /-- The default: such bytes raise TooManyPixels. -/
  | strict
  /-- Such bytes are ignored and the decode ends DONE. -/
  | ignoreTrailing
  deriving DecidableEq, Repr

/-- The open parameters of one machine. -/
structure Config where
  /-- `TRAILING_POLICY` (R7). -/
  trailing : TrailingPolicy
  /-- `MAX_PAYLOAD_LEN` (R7, R51): the largest payload accepted; `none` is unbounded. -/
  maxPayloadLen : Option Nat
  /-- Whether the header parser is integrated with the block, so that a header error sets `fsm` and `err` (R194). -/
  headerIntegrated : Bool
  deriving DecidableEq, Repr

/-- `Strict` is the spec's default (R7, R183). DESIGN CHOICE: unbounded payload (notes/assumptions/5.md). The header
parser is not part of the block (R4). -/
def Config.standard : Config :=
  { trailing := .strict, maxPayloadLen := none, headerIntegrated := false }

end Sys2Proof
end

