-- ==== Sys2Proof/Machine/State.lean ====
section
/-! DEFINITION. The state of one instance of the block (spec/10_state.md), as plain data, the reasons a step can
stop, and the state after hardware reset (spec/70_reset_and_hazards.md rule R240). -/

namespace Sys2Proof.Machine

/-- A pixel: four unsigned 8-bit channels, whatever the header's channel count (R20). -/
structure Pixel where
  r : Byte
  g : Byte
  b : Byte
  a : Byte
  deriving DecidableEq, Repr

/-- `P0`, the zero pixel (R10). -/
def Pixel.zero : Pixel := ⟨0, 0, 0, 0⟩

/-- `PINIT`, the pixel `prev` starts a decode with (R10, R21, R241). -/
def Pixel.init : Pixel := ⟨0, 0, 0, 255⟩

/-- The pixel cache: 64 slots, no tags, no valid bits (R22). -/
abbrev Cache := Vector Pixel 64

/-- Every slot the zero pixel: the cache at the start of a decode (R22, R241). -/
def Cache.zeros : Cache := Vector.replicate 64 Pixel.zero

/-- The state register `fsm` (R29); its 2-bit codes are `Fsm.code` in Machine/Flags.lean. -/
inductive Fsm where
  | idle | busy | done | error
  deriving DecidableEq, Repr

/-- The error register `err` (R30, R210); its 3-bit codes are `ErrKind.code` in Machine/Flags.lean. -/
inductive ErrKind where
  | none
  | invalidMagic
  | tooShortHeader
  | invalidChannels
  | invalidColorspace
  /-- Kept because the source lists it; nothing raises it (R216). -/
  | invalidPixel
  | tooFewPixels
  | tooManyPixels
  deriving DecidableEq, Repr

/-- `hdr_channels`, 1 bit: 0 = RGB, 1 = RGBA (R28). -/
inductive Channels where
  | rgb | rgba
  deriving DecidableEq, Repr

/-- `hdr_colorspace`, 1 bit: 0 = sRGB, 1 = Linear (R28). -/
inductive Colorspace where
  | srgb | linear
  deriving DecidableEq, Repr

/-- A parsed header (R190, R193): typed, so that no illegal value reaches the block. -/
structure Header where
  width : Dim
  height : Dim
  channels : Channels
  colorspace : Colorspace
  deriving DecidableEq, Repr

/-- Payload memory (R50, R51): bytes 0 to `len - 1`. `cells` lists, by rising address, the bytes that are not 0; an
address below `len` that is not listed reads as 0 (DESIGN CHOICE, notes/assumptions/2.md). -/
structure Memory where
  len : Nat
  cells : List Host.Cell
  deriving DecidableEq, Repr

/-- The host's duties while BUSY that a host action can break (R242). -/
inductive HostDuty where
  /-- Leave the payload and its length unchanged. -/
  | payloadChanged
  /-- Do not issue `start` (R243). -/
  | startWhileBusy
  deriving DecidableEq, Repr

/-- Everything the spec gives the machine. -/
structure State where
  /-- The machine's parameters (R7); fixed, written by nothing. -/
  config : Config
  /-- State register (R29). -/
  fsm : Fsm
  /-- Error register (R30). -/
  err : ErrKind
  /-- Previous-pixel register (R21). -/
  prev : Pixel
  /-- Pixel cache (R22). -/
  cache : Cache
  /-- Pixels committed in this decode (R26). -/
  count : Count
  /-- Pixels the decode must produce (R27). -/
  target : Count
  /-- Payload cursor, the program counter (R25). -/
  pos : Nat
  /-- Header registers (R28). -/
  hdrWidth : Dim
  hdrHeight : Dim
  hdrChannels : Channels
  hdrColorspace : Colorspace
  /-- Output sequence, in commit order (R31, R61). -/
  out : List Pixel
  /-- Payload memory (R51). -/
  payload : Memory
  /-- The refusal mark: a duty the host broke during this decode (R242, R243). -/
  dutyBroken : Option HostDuty
  deriving DecidableEq, Repr

/-- Why the machine stops. An error of the block is no fault here: it is a next state in ERROR (R211). -/
inductive Fault where
  /-- Raised by `step` when `fsm` is not BUSY: the decoder has no step there (R100). A stuck state until the host
  acts (R219). Safe: nothing can be proved of a step that does not exist (notes/assumptions/6.md). -/
  | noStep (fsm : Fsm)
  deriving DecidableEq, Repr

/-- Why the model gives no meaning. -/
inductive Refusal where
  /-- An instruction without a meaning yet; no arm of `exec` uses it now. Safe. -/
  | notModelled (mnemonic : String)
  /-- Raised by `step` once the host has broken a duty: such a decode has no meaning (R242, R243). Safe
  (notes/assumptions/7.md). -/
  | hostDutyBroken (duty : HostDuty)
  /-- Raised by the host action that loads a payload longer than `MAX_PAYLOAD_LEN`: the block accepts none (R7, R51).
  Safe (notes/assumptions/5.md). -/
  | payloadTooLong (len : Nat)
  deriving DecidableEq, Repr

/-- The state right after hardware reset: `fsm` IDLE and `err` NONE are the spec's (R240). Every other value is a
DESIGN CHOICE, since the spec leaves it unspecified (notes/assumptions/1.md, 2.md; parameters: 4.md, 5.md, 9.md). -/
def State.reset : State :=
  { config := Config.standard
    fsm := .idle
    err := .none
    prev := Pixel.zero
    cache := Cache.zeros
    count := 0
    target := 0
    pos := 0
    hdrWidth := 0
    hdrHeight := 0
    hdrChannels := .rgb
    hdrColorspace := .srgb
    out := []
    payload := { len := 0, cells := [] }
    dutyBroken := none }

end Sys2Proof.Machine
end

