-- ==== Sys2Proof/Machine/Flags.lean ====
section
/-! DEFINITION. Status encodings. This hardware has NO flags and no condition codes: no opcode sets or reads one
(spec/10_state.md rule R32). The only status is `fsm` and `err`; these are their codes as the host reads them. -/

namespace Sys2Proof.Machine

/-- The 2-bit code of `fsm` (R29). -/
def Fsm.code : Fsm → BitVec 2
  | .idle => 0b00
  | .busy => 0b01
  | .done => 0b10
  | .error => 0b11

/-- The 3-bit code of `err` (R210). -/
def ErrKind.code : ErrKind → BitVec 3
  | .none => 0
  | .invalidMagic => 1
  | .tooShortHeader => 2
  | .invalidChannels => 3
  | .invalidColorspace => 4
  | .invalidPixel => 5
  | .tooFewPixels => 6
  | .tooManyPixels => 7

/-- The bit of `hdr_channels` (R28). -/
def Channels.bit : Channels → BitVec 1
  | .rgb => 0
  | .rgba => 1

/-- The bit of `hdr_colorspace` (R28). -/
def Colorspace.bit : Colorspace → BitVec 1
  | .srgb => 0
  | .linear => 1

end Sys2Proof.Machine
end

