-- ==== Sys2Proof/Machine/Operands.lean ====
section
/-! DEFINITION. Channel arithmetic, the pixel hash, the pixels the opcodes compute from their operands, and the word
view of a pixel (spec/00_scope.md R9, spec/20_memory.md R58 to R60, spec/41_literal.md to 44_run.md). -/

namespace Sys2Proof.Machine

/-- `add8(a, d) = (a + d) mod 256`, for any integer `d` (R9); wraps silently, never saturates (R152). -/
def add8 (a : Byte) (d : Int) : Byte := BitVec.ofInt 8 ((a.toNat : Int) + d)

/-- `hash(p) = (r*3 + g*5 + b*7 + a*11) mod 64`, over the integers (R58). -/
def pixelHash (p : Pixel) : Slot :=
  BitVec.ofNat 6 ((p.r.toNat * 3 + p.g.toNat * 5 + p.b.toNat * 7 + p.a.toNat * 11) % 64)

/-- The same hash computed with 8-bit-wrapping multiplication and addition, keeping the low 6 bits (R59). -/
def hashWrapped (p : Pixel) : Slot := (p.r * 3 + p.g * 5 + p.b * 7 + p.a * 11).setWidth 6

/-- The pixel of RGB: alpha carried over (R130). -/
def rgbPixel (r g b : Byte) (prev : Pixel) : Pixel := ⟨r, g, b, prev.a⟩

/-- The pixel of RGBA (R131). -/
def rgbaPixel (r g b a : Byte) : Pixel := ⟨r, g, b, a⟩

/-- The pixel of DIFF: three independent lanes, alpha kept (R150, R152). -/
def diffPixel (dr dg db : Int) (prev : Pixel) : Pixel :=
  ⟨add8 prev.r dr, add8 prev.g dg, add8 prev.b db, prev.a⟩

/-- The pixel of LUMA: red and blue deltas are relative to green, the sums plain integers (R151). -/
def lumaPixel (dg drg dbg : Int) (prev : Pixel) : Pixel :=
  ⟨add8 prev.r (dg + drg), add8 prev.g dg, add8 prev.b (dg + dbg), prev.a⟩

/-- The pixels of RUN (R170). -/
def runPixels (k : Nat) (prev : Pixel) : List Pixel := List.replicate k prev

/-- The 32-bit word view of a pixel: R[31:24], G[23:16], B[15:8], A[7:0] (R60). -/
def Pixel.toWord (p : Pixel) : BitVec 32 := p.r ++ p.g ++ p.b ++ p.a

/-- The pixel a 32-bit word holds (R60). -/
def Pixel.ofWord (w : BitVec 32) : Pixel :=
  ⟨w.extractLsb' 24 8, w.extractLsb' 16 8, w.extractLsb' 8 8, w.extractLsb' 0 8⟩

end Sys2Proof.Machine
end

