-- ==== Sys2Proof/Machine/PayloadMemory.lean ====
section
/-! DEFINITION. Operations over payload memory (spec/20_memory.md rules R50, R51, R55). The block only reads it
(`readByte`, `readRange`); `ofBytes`, `write` and `place` are how the host's side puts bytes there. -/

namespace Sys2Proof.Machine

/-- The listed byte at `a`, or 0. -/
def cellAt (a : Nat) : List Host.Cell → Byte
  | [] => 0
  | (x, b) :: cs => if x = a then b else cellAt a cs

/-- The cells are in canonical form between `lo` and `len`: addresses strictly rising, no byte 0. -/
def cellsWf (lo len : Nat) : List Host.Cell → Bool
  | [] => true
  | (x, b) :: cs => decide (lo ≤ x) && decide (x < len) && decide (b ≠ 0) && cellsWf (x + 1) len cs

/-- The memory is in its one canonical form, so that equal memories are equal data. -/
def Memory.wf (m : Memory) : Bool := cellsWf 0 m.len m.cells

/-- The payload byte at offset `a`; there is none at or beyond `len` (R51). -/
def Memory.readByte (m : Memory) (a : Nat) : Option Byte :=
  if a < m.len then some (cellAt a m.cells) else none

/-- `MemRead(a, n)`: the `n` bytes from `a`, defined only for `a + n <= len` (R11, R51). -/
def Memory.readRange (m : Memory) (a n : Nat) : Option (List Byte) :=
  if a + n ≤ m.len then some ((List.range n).map fun i => cellAt (a + i) m.cells) else none

/-- `len - pos`: bytes not yet consumed (R101). -/
def Memory.remaining (m : Memory) (pos : Nat) : Nat := m.len - pos

/-- The cells that hold the bytes `bs` from address `a` on. -/
def cellsOf (a : Nat) : List Byte → List Host.Cell
  | [] => []
  | b :: bs => if b = 0 then cellsOf (a + 1) bs else (a, b) :: cellsOf (a + 1) bs

/-- The payload whose bytes are `bs` (R51: the host supplies it). -/
def Memory.ofBytes (bs : List Byte) : Memory := { len := bs.length, cells := cellsOf 0 bs }

/-- The cells with the byte at `a` replaced by `b`, in canonical form. -/
def setCell (a : Nat) (b : Byte) : List Host.Cell → List Host.Cell
  | [] => if b = 0 then [] else [(a, b)]
  | (x, c) :: cs =>
    if x < a then (x, c) :: setCell a b cs
    else if x = a then (if b = 0 then cs else (a, b) :: cs)
    else if b = 0 then (x, c) :: cs
    else (a, b) :: (x, c) :: cs

/-- The memory with the byte at `a` replaced; an address at or beyond `len` does not exist and nothing is written. -/
def Memory.write (m : Memory) (a : Nat) (b : Byte) : Memory :=
  if a < m.len then { m with cells := setCell a b m.cells } else m

/-- The memory with the bytes `bs` at `a` and after, as long as that needs it to be. -/
def Memory.place (m : Memory) (a : Nat) : List Byte → Memory
  | [] => m
  | b :: bs => ({ m with len := max m.len (a + 1) }.write a b).place (a + 1) bs

end Sys2Proof.Machine
end

