-- ==== Sys2Proof/Machine/Ops.lean ====
section
/-! DEFINITION. The shared operations on the state: cache access, emission, the pixel commit, raising an error, the
end of a decode, and `start` and hardware reset (spec/20_memory.md, 40_dispatch.md, 60_exceptions.md,
70_reset_and_hazards.md). -/

namespace Sys2Proof.Machine

/-- What a meaning answers. -/
abbrev Result := Host.Outcome State Fault Refusal

/-- `CacheRead(i)`: the whole pixel in slot `i`, with no hash check (R56). -/
def cacheRead (i : Slot) (s : State) : Pixel := s.cache[i.toNat]'i.isLt

/-- `CacheWrite(i, p)`: unconditional overwrite of slot `i` (R57). -/
def cacheWrite (i : Slot) (p : Pixel) (s : State) : State := { s with cache := s.cache.set i.toNat p i.isLt }

/-- `Emit(p)`: append to the output (R61). -/
def emit (p : Pixel) (s : State) : State := { s with out := s.out ++ [p] }

/-- `Commit(p)`: `prev`, the slot of the NEW pixel's hash, the output and the count, as one action (R108, R249). -/
def commit (p : Pixel) (s : State) : State :=
  { emit p (cacheWrite (pixelHash p) p s) with prev := p, count := s.count + 1 }

/-- One `Commit` for each pixel, in order (R101, R109). -/
def commitAll : List Pixel → State → State
  | [], s => s
  | p :: ps, s => commitAll ps (commit p s)

/-- `pos <- pos + n` (R110). -/
def advance (n : Nat) (s : State) : State := { s with pos := s.pos + n }

/-- The state an error leaves: `fsm <- ERROR`, `err <- E`, and nothing else is written (R211). -/
def raised (e : ErrKind) (s : State) : State := { s with fsm := .error, err := e }

/-- `raise E` (R211), the block's only exception. There is no handler, no vector and no saved return state, and no
return from an error (R212): the ways out are `start` and `hardReset` below. -/
def raise (e : ErrKind) (s : State) : Result := .next (raised e s)

/-- The decode ended successfully: `fsm <- DONE` (R180). -/
def finish (s : State) : State := { s with fsm := .done }

/-- The common end of every opcode (R101): the overshoot check before any commit (R107), then the commits in order,
then the cursor (R110). `ps` was computed from the state at the start of the step (R106). -/
def produce (n : Nat) (ps : List Pixel) (s : State) : Result :=
  if s.target.toNat < s.count.toNat + ps.length then raise .tooManyPixels s
  else .next (advance n (commitAll ps s))

/-- What trailing bytes that are not a full END marker do once the last pixel is there (R183). -/
def trailing (s : State) : Result :=
  match s.config.trailing with
  | .strict => raise .tooManyPixels s
  | .ignoreTrailing => .next (finish s)

/-- `zext_64(width) * zext_64(height)`: exact, it cannot wrap (R27). -/
def pixelTarget (w h : Dim) : Count := w.setWidth 64 * h.setWidth 64

/-- `start(H)` on a block that is not BUSY, as one action (R241). It leaves the payload, the parameters and the
refusal mark alone. -/
def start (h : Header) (s : State) : State :=
  { s with
    hdrWidth := h.width
    hdrHeight := h.height
    hdrChannels := h.channels
    hdrColorspace := h.colorspace
    target := pixelTarget h.width h.height
    prev := Pixel.init
    cache := Cache.zeros
    count := 0
    pos := 0
    out := []
    err := .none
    fsm := .busy }

/-- Hardware reset (R240): `fsm <- IDLE`, `err <- 0`; the registers it leaves unspecified take the values of
`State.reset` (notes/assumptions/1.md). The parameters are fixed, and the payload is the host's and stays (8.md);
the abandoned decode's refusal mark goes with it (7.md). -/
def hardReset (s : State) : State := { State.reset with config := s.config, payload := s.payload }

/-- Mark the decode as one the host broke a duty in (R242). The first mark stays (DESIGN CHOICE, notes/assumptions/7.md).
Nothing else changes: the bytes of a load made while BUSY do not reach payload memory, and a `start` made while BUSY
writes no register (DESIGN CHOICE, notes/assumptions/18.md). -/
def breach (d : HostDuty) (s : State) : State :=
  match s.dutyBroken with
  | none => { s with dutyBroken := some d }
  | some _ => s

end Sys2Proof.Machine
end

