-- ==== Sys2Proof/Machine/Delta.lean ====
section
/-! DEFINITION. The delta opcodes (spec/43_delta.md). -/

namespace Sys2Proof.Machine

/-- DIFF: small deltas on red, green and blue (R150). -/
def execDiff (dr dg db : Int) (s : State) : Result := produce 1 [diffPixel dr dg db s.prev] s

/-- LUMA: a green delta, and red and blue deltas relative to it (R151). -/
def execLuma (dg drg dbg : Int) (s : State) : Result := produce 2 [lumaPixel dg drg dbg s.prev] s

end Sys2Proof.Machine
end

