-- ==== Sys2Proof/Machine/EndMarker.lean ====
section
/-! DEFINITION. The END marker (spec/45_end.md). -/

namespace Sys2Proof.Machine

/-- END: recognised only when `count = target`, where it is consumed and the decode is DONE (R181). Before that its
bytes are seven `INDEX 0` and one `INDEX 1`, and a step on them runs the first `INDEX 0` (R184; DEDUCED,
notes/assumptions/10.md). -/
def execEndMarker (s : State) : Result :=
  if s.count = s.target then .next (finish (advance 8 s))
  else produce 1 [cacheRead 0 s] s

end Sys2Proof.Machine
end

