-- ==== Sys2Proof/Machine/Literal.lean ====
section
/-! DEFINITION. The literal opcodes (spec/41_literal.md). `step` calls these at `count != target`, with the opcode's
bytes there (R101, R105). -/

namespace Sys2Proof.Machine

/-- RGB: literal colour, alpha from `prev` as it stood at the start of the step (R130). -/
def execRgb (r g b : Byte) (s : State) : Result := produce 4 [rgbPixel r g b s.prev] s

/-- RGBA: all four channels literal, in every image (R131, R93). -/
def execRgba (r g b a : Byte) (s : State) : Result := produce 5 [rgbaPixel r g b a] s

end Sys2Proof.Machine
end

