-- ==== Sys2Proof/Machine/Lookup.lean ====
section
/-! DEFINITION. The cache lookup (spec/42_index.md). -/

namespace Sys2Proof.Machine

/-- INDEX: slot `idx` is read before the commit writes slot `hash(p)` (R140, R249). -/
def execIndex (idx : Slot) (s : State) : Result := produce 1 [cacheRead idx s] s

end Sys2Proof.Machine
end

