-- ==== Sys2Proof/Machine/RunLength.lean ====
section
/-! DEFINITION. The run-length opcode (spec/44_run.md). -/

namespace Sys2Proof.Machine

/-- RUN: `k` commits of `prev`, or TooManyPixels and none of them (R170, R107, R109). -/
def execRun (k : Nat) (s : State) : Result := produce 1 (runPixels k s.prev) s

end Sys2Proof.Machine
end

