-- ==== Sys2Proof/Machine/Control.lean ====
section
/-! DEFINITION. Fetch, the decode step and the completion check (spec/40_dispatch.md R101 to R105, spec/45_end.md
R180 to R183). -/

namespace Sys2Proof.Machine

/-- Fetch and classify (R101, R104): the tag at `pos` gives the length, then exactly that many bytes are read and
decoded; no byte outside `[pos, pos + n)` is looked at (R51). -/
def fetch (s : State) : Except OpcodeReject Instr :=
  match s.payload.readByte s.pos with
  | none => .error .exhausted
  | some t =>
    match s.payload.readRange s.pos (tagLength t) with
    | none => .error .truncated
    | some bs => decodeOpcode bs

/-- The opcode branch of the step: an exhausted payload (R103) or a truncated opcode (R105) is TooFewPixels,
otherwise the opcode runs. -/
def decodeStep (s : State) : Result :=
  match fetch s with
  | .ok i => exec i s
  | .error .exhausted => raise .tooFewPixels s
  | .error .truncated => raise .tooFewPixels s

/-- The END marker at `pos`, if all 8 bytes of it are there (R180, R181). -/
def fetchMarker (s : State) : Except MarkerReject Instr :=
  match s.payload.readRange s.pos 8 with
  | none => .error .notMarker
  | some bs => decodeMarker bs

/-- `Complete()` (R180): nothing left is DONE (R182), a full END marker is consumed (R181), anything else is the
trailing policy's (R183). -/
def complete (s : State) : Result :=
  if s.payload.remaining s.pos = 0 then .next (finish s)
  else
    match fetchMarker s with
    | .ok i => exec i s
    | .error .notMarker => trailing s

/-- One step of a BUSY decoder: the completion branch comes first (R101, R102). -/
def busyStep (s : State) : Result :=
  if s.count = s.target then complete s else decodeStep s

end Sys2Proof.Machine
end

