-- ==== Sys2Proof/Machine/Boundary.lean ====
section
/-! DEFINITION. The boundary contracts (spec/48_boundary.md): the header parser, the buffer packer, and what the host
reads (spec/40_dispatch.md R112, spec/60_exceptions.md R214, spec/70_reset_and_hazards.md R253). -/

namespace Sys2Proof.Machine

/-- The ASCII tag "qoif" (R191; PRESUMED, the spec marks the byte values as general knowledge,
notes/assumptions/13.md). -/
def magic : List Byte := [0x71, 0x6F, 0x69, 0x66]

/-- Byte `i` of the header bytes; `parseHeader` has checked that it is there. -/
def headerByte (h : List Byte) (i : Nat) : Byte := h.getD i 0

/-- A big-endian 32-bit field at offset `i` (R191, R53). -/
def be32 (h : List Byte) (i : Nat) : Dim :=
  headerByte h i ++ headerByte h (i + 1) ++ headerByte h (i + 2) ++ headerByte h (i + 3)

/-- The channel byte: 3 is RGB, 4 is RGBA, nothing else is legal (R191, R192). -/
def channelsOf (b : Byte) : Option Channels :=
  if b = 3 then some .rgb else if b = 4 then some .rgba else none

/-- The colorspace byte: 0 is sRGB, 1 is Linear, nothing else is legal (R191, R192). -/
def colorspaceOf (b : Byte) : Option Colorspace :=
  if b = 0 then some .srgb else if b = 1 then some .linear else none

/-- `ParseHeader(h)`: field by field in offset order, the first failing check gives the error (R192). -/
def parseHeader (h : List Byte) : Except ErrKind Header :=
  if h.length < 4 then .error .tooShortHeader
  else if h.take 4 ≠ magic then .error .invalidMagic
  else if h.length < 12 then .error .tooShortHeader
  else if h.length < 13 then .error .tooShortHeader
  else
    match channelsOf (headerByte h 12) with
    | none => .error .invalidChannels
    | some channels =>
      if h.length < 14 then .error .tooShortHeader
      else
        match colorspaceOf (headerByte h 13) with
        | none => .error .invalidColorspace
        | some colorspace =>
          .ok { width := be32 h 4, height := be32 h 8, channels := channels, colorspace := colorspace }

/-- The header part of a file: file offsets 0 to 13 (R52, R190). -/
def headerPart (file : List Byte) : List Byte := file.take 14

/-- The payload part of a file: file offset 14 is payload offset 0 (R52). -/
def payloadPart (file : List Byte) : List Byte := file.drop 14

/-- Bytes per pixel in the packed buffer (R195, R197). -/
def Channels.bytes : Channels → Nat
  | .rgb => 3
  | .rgba => 4

/-- One pixel's bytes: R, G, B, then A for RGBA; alpha dropped for RGB (R195, R196). -/
def packPixel (c : Channels) (p : Pixel) : List Byte :=
  match c with
  | .rgb => [p.r, p.g, p.b]
  | .rgba => [p.r, p.g, p.b, p.a]

/-- `Pack(out, channels)` (R195). -/
def pack (out : List Pixel) (c : Channels) : List Byte := out.flatMap (packPixel c)

/-- The pixel format of the metadata (R198). -/
inductive PixelFormat where
  | rgb8 | rgba8
  deriving DecidableEq, Repr

/-- `RGB8` for 3 channels, `RGBA8` for 4 (R198). -/
def Channels.format : Channels → PixelFormat
  | .rgb => .rgb8
  | .rgba => .rgba8

/-- The host-visible metadata (R198). -/
structure Metadata where
  width : Dim
  height : Dim
  format : PixelFormat
  colorspace : Colorspace
  deriving DecidableEq, Repr

/-- Reading the metadata (R198, R253). -/
def readMetadata (s : State) : Metadata :=
  { width := s.hdrWidth, height := s.hdrHeight, format := s.hdrChannels.format, colorspace := s.hdrColorspace }

/-- The register map, as codes, with the debug views `count`, `target` and `pos` (R33, R253). -/
structure StatusView where
  fsm : BitVec 2
  err : BitVec 3
  hdrWidth : BitVec 32
  hdrHeight : BitVec 32
  hdrChannels : BitVec 1
  hdrColorspace : BitVec 1
  count : BitVec 64
  target : BitVec 64
  pos : Nat
  deriving DecidableEq, Repr

/-- Polling the registers (R33, R253): read at any time, with no side effect. -/
def pollStatus (s : State) : StatusView :=
  { fsm := s.fsm.code, err := s.err.code, hdrWidth := s.hdrWidth, hdrHeight := s.hdrHeight
    hdrChannels := s.hdrChannels.bit, hdrColorspace := s.hdrColorspace.bit
    count := s.count, target := s.target, pos := s.pos }

/-- The observation of a decode (R112). -/
inductive Observation where
  | ok (out : List Pixel)
  | err (kind : ErrKind)
  deriving DecidableEq, Repr

/-- What is observed: the pixels in DONE, the kind alone in ERROR (R112, R214), nothing before the end, and nothing
of a decode the model refuses (R242). -/
def observe (s : State) : Option Observation :=
  match s.dutyBroken with
  | some _ => none
  | none =>
    match s.fsm with
    | .idle => none
    | .busy => none
    | .done => some (.ok s.out)
    | .error => some (.err s.err)

/-- The packed byte buffer, on DONE only (R195, R197, R244). -/
def readBuffer (s : State) : Option (List Byte) :=
  match observe s with
  | some (.ok out) => some (pack out s.hdrChannels)
  | some (.err _) => none
  | none => none

end Sys2Proof.Machine
end

