-- ==== Sys2Proof/Machine/HostInterface.lean ====
section
/-! DEFINITION. What the host can do to the block (spec/70_reset_and_hazards.md R240 to R245, R253), between decoder
steps. The host has no other way to write state. -/

namespace Sys2Proof.Machine

/-- The host's actions. -/
inductive HostAction where
  /-- Hardware reset, at any time (R240). -/
  | hardReset
  /-- Load the payload (R51, R253). -/
  | loadPayload (bs : List Byte)
  /-- `start(H)` (R241). -/
  | start (h : Header)
  /-- The whole boot sequence on a file's bytes (R244): parse the header, load the payload, start. -/
  | startFile (file : List Byte)
  deriving DecidableEq, Repr

/-- Whether a payload of `len` bytes is one the block accepts (`MAX_PAYLOAD_LEN`, R7, R51). -/
def acceptsLength (c : Config) (len : Nat) : Bool :=
  match c.maxPayloadLen with
  | none => true
  | some m => decide (len ≤ m)

/-- A header error at the boundary (R194): an integrated parser sets `fsm` and `err` with no decode step; a separate
one stops the host, and the block is not touched (R244; notes/assumptions/9.md). -/
def headerError (e : ErrKind) (s : State) : Result :=
  if s.config.headerIntegrated then
    if s.fsm = .busy then .next (breach .startWhileBusy s) else raise e s
  else .next s

/-- Place the payload, when the block is not BUSY (R51). -/
def placePayload (bs : List Byte) (s : State) : Result :=
  if acceptsLength s.config bs.length then .next { s with payload := Memory.ofBytes bs }
  else .refused (.payloadTooLong bs.length)

/-- Place the payload and start (R244, steps 2 and 3); both need a block that is not BUSY. -/
def placeAndStart (h : Header) (bs : List Byte) (s : State) : Result :=
  if s.fsm = .busy then .next (breach .payloadChanged s)
  else
    match placePayload bs s with
    | .next s' => .next (start h s')
    | .fault r => .fault r
    | .refused r => .refused r

/-- The boot sequence on a file (R244): a header error stops it. -/
def bootFile (file : List Byte) (s : State) : Result :=
  match parseHeader (headerPart file) with
  | .error e => headerError e s
  | .ok h => placeAndStart h (payloadPart file) s

/-- One host action. Loading or starting while BUSY breaks a duty: the decode is marked and refused from then on
(R242, R243). What the host meant to write then is dropped (DESIGN CHOICE, notes/assumptions/18.md). -/
def hostAct (a : HostAction) (s : State) : Result :=
  match a with
  | .hardReset => .next (hardReset s)
  | .loadPayload bs => if s.fsm = .busy then .next (breach .payloadChanged s) else placePayload bs s
  | .start h => if s.fsm = .busy then .next (breach .startWhileBusy s) else .next (start h s)
  | .startFile file => bootFile file s

/-- The header `placeInstruction` starts with: 62x1, so that any one opcode has room, or 0x1 for the END marker. -/
def placementHeader (isMarker : Bool) : Header :=
  { width := if isMarker then 0 else 62, height := 1, channels := .rgba, colorspace := .srgb }

/-- The state in which the very next step fetches the instruction in `bs` (notes/assumptions/3.md). A block that is
not BUSY is loaded and started as the host does it (R244); a BUSY one gets the bytes at `pos`, and a target that is
`count` for the END marker and leaves room for 62 pixels otherwise. -/
def placeInstruction (bs : List Byte) (s : State) : State :=
  let isMarker : Bool := decide (bs = endMarkerBytes)
  if s.fsm = .busy then
    { s with
      payload := s.payload.place s.pos bs
      target := if isMarker then s.count
        else if s.count.toNat + 62 ≤ s.target.toNat then s.target else s.count + 62
      dutyBroken := none }
  else
    { start (placementHeader isMarker) s with payload := Memory.ofBytes bs, dutyBroken := none }

end Sys2Proof.Machine
end

