-- ==== Sys2Proof/Machine/Step.lean ====
section
/-! DEFINITION. The decoder's one step (spec/40_dispatch.md R100, R101). -/

namespace Sys2Proof.Machine

/-- One architectural step. A decode whose host duty was broken is refused (R242); only a BUSY decoder has a step
(R100). -/
def step (s : State) : Host.Outcome State Fault Refusal :=
  match s.dutyBroken with
  | some d => .refused (.hostDutyBroken d)
  | none =>
    match s.fsm with
    | .busy => busyStep s
    | .idle => .fault (.noStep .idle)
    | .done => .fault (.noStep .done)
    | .error => .fault (.noStep .error)

/-- `s` with the table word's instruction where `step` fetches its next instruction, and what that takes
(notes/assumptions/3.md). -/
def State.withFetchWord (s : State) (nbits w : Nat) : State := placeInstruction (tableBytes nbits w) s

end Sys2Proof.Machine
end

