-- ==== Sys2Proof/Safety.lean ====
section
/-! DEFINITION. What the states of a decode look like (spec/10_state.md R21 to R31, spec/40_dispatch.md R102 to R114),
and which states a machine can come to. -/

namespace Sys2Proof.Machine

/-- The cache that the commits of `out`, in order, make of the start cache (R22, R57, R108). -/
def outCache (out : List Pixel) : Cache :=
  out.foldl (fun c p => c.set (pixelHash p).toNat p (pixelHash p).isLt) Cache.zeros

/-- The last committed pixel, or `PINIT` before the first (R21). -/
def lastPixel (out : List Pixel) : Pixel := out.getLastD Pixel.init

/-- The decode state of a running or successful decode. -/
structure DecodeInv (s : State) : Prop where
  /-- `len(out) = count` (R31). -/
  outLength : s.out.length = s.count.toNat
  /-- `count <= target` (R26). -/
  countLe : s.count.toNat ≤ s.target.toNat
  /-- `target = width * height`, exactly (R27). -/
  targetEq : s.target.toNat = s.hdrWidth.toNat * s.hdrHeight.toNat
  /-- `prev` is the last committed pixel (R21). -/
  prevEq : s.prev = lastPixel s.out
  /-- The cache is what the commits made of it (R22, R57). -/
  cacheEq : s.cache = outCache s.out

/-- The invariant of the machine. -/
structure Inv (s : State) : Prop where
  /-- The payload is in canonical form. -/
  payloadWf : s.payload.wf = true
  /-- `err` is NONE in every state but ERROR (R30). -/
  errIff : s.err = .none ↔ s.fsm ≠ .error
  /-- The decode state, while BUSY and in DONE. -/
  decode : s.fsm = .busy ∨ s.fsm = .done → DecodeInv s
  /-- The cursor never passes the payload's end while BUSY (R25). -/
  cursor : s.fsm = .busy → s.pos ≤ s.payload.len
  /-- In DONE every pixel is there (R114). -/
  doneFull : s.fsm = .done → s.count = s.target
  /-- Only a BUSY decode can be marked (R242). -/
  markBusy : s.dutyBroken ≠ none → s.fsm = .busy

/-- The states a machine with any parameters can come to, from hardware reset, by decoder steps and host actions. -/
inductive Reachable : State → Prop where
  | reset (c : Config) : Reachable { State.reset with config := c }
  | step (s t : State) : Reachable s → Sys2Proof.Machine.step s = .next t → Reachable t
  | host (a : HostAction) (s t : State) : Reachable s → hostAct a s = .next t → Reachable t

/-- `Pixels(op, B, prev, cache)`: the pixels an opcode produces, from `prev` and the cache as they stood at the start
of the step (R106). The END marker produces none (R181). -/
def pixelsOf (i : Instr) (prev : Pixel) (cache : Cache) : List Pixel :=
  match i with
  | .rgb r g b => [⟨r, g, b, prev.a⟩]
  | .rgba r g b a => [⟨r, g, b, a⟩]
  | .index idx => [cache[idx.toNat]'idx.isLt]
  | .diff dr dg db => [⟨add8 prev.r dr, add8 prev.g dg, add8 prev.b db, prev.a⟩]
  | .luma dg drg dbg => [⟨add8 prev.r (dg + drg), add8 prev.g dg, add8 prev.b (dg + dbg), prev.a⟩]
  | .run k => List.replicate k prev
  | .endMarker => []

/-- A decode is running and the host has kept its duties: the decoder has a step (R100, R242). -/
def State.running (s : State) : Prop := s.fsm = .busy ∧ s.dutyBroken = none

/-- `s` after one opcode of `n` bytes has produced the one pixel `p` (R108, R110); nothing else differs. -/
def State.withPixel (p : Pixel) (n : Nat) (s : State) : State :=
  { s with
    prev := p
    cache := s.cache.set (pixelHash p).toNat p (pixelHash p).isLt
    out := s.out ++ [p]
    count := s.count + 1
    pos := s.pos + n }

/-- `s` after one opcode of 1 byte has produced `prev` `k` times (R109, R170, R171); nothing else differs. -/
def State.withRun (k : Nat) (s : State) : State :=
  { s with
    cache := s.cache.set (pixelHash s.prev).toNat s.prev (pixelHash s.prev).isLt
    out := s.out ++ List.replicate k s.prev
    count := s.count + BitVec.ofNat 64 k
    pos := s.pos + 1 }

/-- The decode has ended (R112). -/
def State.ended (s : State) : Bool := decide (s.fsm = .done) || decide (s.fsm = .error)

end Sys2Proof.Machine
end

