-- ==== Sys2Proof/Certificates/Slice0/Obligations.lean ====
section
/-! DEFINITION. The statements about the machine. Each says in its docstring which rule of spec/ it formalises. -/

open Sys2Proof Sys2Proof.Machine

/-! ### Encoding -/

/-- Bytes written out from the encodings of R82 to R88, and what they decode to. -/
def Obligations.WordsOfTheSpecDecode : Prop :=
  decodeOpcode [0b11111110, 0x7F, 0x80, 0x01] = .ok (.rgb 127 128 1) ∧
  decodeOpcode [0b11111111, 0x0A, 0x14, 0x1E, 0x80] = .ok (.rgba 10 20 30 128) ∧
  decodeOpcode [0b00100110] = .ok (.index 38) ∧
  decodeOpcode [0b01000111] = .ok (.diff (-2) (-1) 1) ∧
  decodeOpcode [0b10100011, 0b10000101] = .ok (.luma 3 0 (-3)) ∧
  decodeOpcode [0b11111101] = .ok (.run 62) ∧
  decodeMarker [0x00, 0x00, 0x00, 0x00, 0x00, 0x00, 0x00, 0x01] = .ok .endMarker

/-- R90 and R216: the map of all 256 tag bytes, with the fields of each; the decode is total, and no step raises
InvalidPixel. -/
def Obligations.EveryTagByteSelectsOneOpcode : Prop :=
  (∀ (t x y z v : Byte) (rest : List Byte),
    (t.toNat ≤ 0x3F →
      decodeOpcode (t :: x :: y :: z :: v :: rest) = .ok (.index (BitVec.ofNat 6 t.toNat))) ∧
    (0x40 ≤ t.toNat → t.toNat ≤ 0x7F →
      decodeOpcode (t :: x :: y :: z :: v :: rest) =
        .ok (.diff ((t.toNat / 16 % 4 : Nat) - 2) ((t.toNat / 4 % 4 : Nat) - 2) ((t.toNat % 4 : Nat) - 2))) ∧
    (0x80 ≤ t.toNat → t.toNat ≤ 0xBF →
      decodeOpcode (t :: x :: y :: z :: v :: rest) =
        .ok (.luma ((t.toNat : Int) - 0x80 - 32) ((x.toNat / 16 : Nat) - 8) ((x.toNat % 16 : Nat) - 8))) ∧
    (0xC0 ≤ t.toNat → t.toNat ≤ 0xFD →
      decodeOpcode (t :: x :: y :: z :: v :: rest) = .ok (.run (t.toNat - 0xBF))) ∧
    (t.toNat = 0xFE → decodeOpcode (t :: x :: y :: z :: v :: rest) = .ok (.rgb x y z)) ∧
    (t.toNat = 0xFF → decodeOpcode (t :: x :: y :: z :: v :: rest) = .ok (.rgba x y z v))) ∧
  (∀ s t : State, step s = .next t → s.err ≠ .invalidPixel → t.err ≠ .invalidPixel)

/-- R92: `Length(t)` by its table; a decoded opcode has that length, and a decode fails for want of an operand byte
exactly when fewer bytes than that are there. -/
def Obligations.TagByteAloneGivesTheLength : Prop :=
  ∀ (t : Byte) (rest : List Byte),
    (tagLength t = if t = 0xFE then 4 else if t = 0xFF then 5 else if t.toNat / 64 = 2 then 2 else 1) ∧
    (∀ i, decodeOpcode (t :: rest) = .ok i → i.length = tagLength t) ∧
    (decodeOpcode (t :: rest) = .error .truncated ↔ rest.length + 1 < tagLength t)

/-- Decoding an encoded well-formed instruction gives it back, whatever bytes follow. -/
def Obligations.DecodingAnEncodedInstructionGivesItBack : Prop :=
  ∀ (i : Instr) (rest : List Byte), i.wellFormed = true →
    (i ≠ .endMarker → decodeOpcode (encode i ++ rest) = .ok i) ∧
    (i = .endMarker → decodeMarker (encode i ++ rest) = .ok i)

/-- The other direction: whatever is decoded is well-formed, and the bytes it was decoded from are its encoding. -/
def Obligations.EncodingADecodedInstructionGivesItsBytes : Prop :=
  (∀ (bs : List Byte) (i : Instr), decodeOpcode bs = .ok i →
    i.wellFormed = true ∧ i ≠ .endMarker ∧ bs.take i.length = encode i) ∧
  (∀ (bs : List Byte) (i : Instr), decodeMarker bs = .ok i →
    i.wellFormed = true ∧ i = .endMarker ∧ bs.take i.length = encode i)

/-- R94, the columns "operand ranges" and "bytes": the bytes of every line, and the refusal of every operand outside its
range; a program's bytes are its lines' bytes in order, and one refused line refuses it. -/
def Obligations.AssemblerRefusesOperandsOutOfRange : Prop :=
  (∀ r g b : Byte, assembleLine (.instr (.rgb r g b)) = some [0xFE, r, g, b]) ∧
  (∀ r g b a : Byte, assembleLine (.instr (.rgba r g b a)) = some [0xFF, r, g, b, a]) ∧
  (∀ i : Slot, assembleLine (.instr (.index i)) = some [BitVec.ofNat 8 i.toNat]) ∧
  (∀ dr dg db : Int, assembleLine (.instr (.diff dr dg db)) =
    if -2 ≤ dr ∧ dr ≤ 1 ∧ -2 ≤ dg ∧ dg ≤ 1 ∧ -2 ≤ db ∧ db ≤ 1 then
      some [BitVec.ofInt 8 (0x40 + (dr + 2) * 16 + (dg + 2) * 4 + (db + 2))]
    else none) ∧
  (∀ dg drg dbg : Int, assembleLine (.instr (.luma dg drg dbg)) =
    if -32 ≤ dg ∧ dg ≤ 31 ∧ -8 ≤ drg ∧ drg ≤ 7 ∧ -8 ≤ dbg ∧ dbg ≤ 7 then
      some [BitVec.ofInt 8 (0x80 + (dg + 32)), BitVec.ofInt 8 ((drg + 8) * 16 + (dbg + 8))]
    else none) ∧
  (∀ k : Nat, assembleLine (.instr (.run k)) =
    if 1 ≤ k ∧ k ≤ 62 then some [BitVec.ofNat 8 (0xC0 + (k - 1))] else none) ∧
  (assembleLine (.instr .endMarker) = some [0, 0, 0, 0, 0, 0, 0, 1]) ∧
  (∀ bs : List Byte, assembleLine (.bytes bs) = some bs) ∧
  assemble [] = some [] ∧
  (∀ (l : AsmLine) (ls : List AsmLine) (bs rest : List Byte),
    assembleLine l = some bs → assemble ls = some rest → assemble (l :: ls) = some (bs ++ rest)) ∧
  (∀ (l : AsmLine) (ls : List AsmLine), assembleLine l = none ∨ assemble ls = none → assemble (l :: ls) = none)

/-! ### Operands, cache and payload memory -/

/-- R58 and R59: the hash over the integers, and the same value from the 8-bit-wrapping computation and from any
accumulator of at least 6 bits. -/
def Obligations.HashIsTheSameAtEveryAccumulatorWidth : Prop :=
  ∀ p : Pixel,
    (pixelHash p).toNat = (p.r.toNat * 3 + p.g.toNat * 5 + p.b.toNat * 7 + p.a.toNat * 11) % 64 ∧
    hashWrapped p = pixelHash p ∧
    ∀ w : Nat, 6 ≤ w →
      (p.r.setWidth w * BitVec.ofNat w 3 + p.g.setWidth w * BitVec.ofNat w 5 + p.b.setWidth w * BitVec.ofNat w 7
        + p.a.setWidth w * BitVec.ofNat w 11).setWidth 6 = pixelHash p

/-- R152: each lane of DIFF and LUMA is computed alone, modulo 256 and never clamped, and alpha is kept; a wrap raises
nothing, so `fsm` and `err` are as before. -/
def Obligations.DeltaLanesWrapModulo256 : Prop :=
  ∀ s : State, s.count.toNat < s.target.toNat →
    (∀ dr dg db : Int, ∃ t, exec (.diff dr dg db) s = .next t ∧
      (t.prev.r.toNat : Int) = ((s.prev.r.toNat : Int) + dr) % 256 ∧
      (t.prev.g.toNat : Int) = ((s.prev.g.toNat : Int) + dg) % 256 ∧
      (t.prev.b.toNat : Int) = ((s.prev.b.toNat : Int) + db) % 256 ∧
      t.prev.a = s.prev.a ∧ t.fsm = s.fsm ∧ t.err = s.err) ∧
    (∀ dg drg dbg : Int, ∃ t, exec (.luma dg drg dbg) s = .next t ∧
      (t.prev.r.toNat : Int) = ((s.prev.r.toNat : Int) + (dg + drg)) % 256 ∧
      (t.prev.g.toNat : Int) = ((s.prev.g.toNat : Int) + dg) % 256 ∧
      (t.prev.b.toNat : Int) = ((s.prev.b.toNat : Int) + (dg + dbg)) % 256 ∧
      t.prev.a = s.prev.a ∧ t.fsm = s.fsm ∧ t.err = s.err)

/-- R60: the fields of the 32-bit word view, and that the view loses nothing. -/
def Obligations.CacheWordViewKeepsEveryChannel : Prop :=
  (∀ p : Pixel, p.toWord.extractLsb' 24 8 = p.r ∧ p.toWord.extractLsb' 16 8 = p.g ∧
    p.toWord.extractLsb' 8 8 = p.b ∧ p.toWord.extractLsb' 0 8 = p.a ∧ Pixel.ofWord p.toWord = p) ∧
  (∀ w : BitVec 32, (Pixel.ofWord w).toWord = w)

/-- R56, R57, R108: a commit writes `prev`, the slot of the new pixel's hash, the output and the count; every other slot
reads as before, and nothing else changes. -/
def Obligations.CommitWritesPrevOneSlotOutputAndCount : Prop :=
  ∀ (p : Pixel) (s : State),
    cacheRead (pixelHash p) (commit p s) = p ∧
    (∀ j : Slot, j ≠ pixelHash p → cacheRead j (commit p s) = cacheRead j s) ∧
    commit p s = { s with prev := p, cache := (commit p s).cache, out := s.out ++ [p], count := s.count + 1 }

/-- R51: `MemRead(a, n)` of a loaded payload gives its bytes, and is defined only for `a + n <= len`. -/
def Obligations.PayloadReadsAreTheLoadedBytes : Prop :=
  ∀ (bs : List Byte) (a n : Nat),
    (Memory.ofBytes bs).len = bs.length ∧
    (Memory.ofBytes bs).readByte a = bs[a]? ∧
    (Memory.ofBytes bs).readRange a n = if a + n ≤ bs.length then some ((bs.drop a).take n) else none

/-- Two payloads in canonical form that have the same length and read the same everywhere are the same data. -/
def Obligations.EqualPayloadsAreEqualData : Prop :=
  ∀ m m' : Memory, m.wf = true → m'.wf = true → m.len = m'.len →
    (∀ a, m.readByte a = m'.readByte a) → m = m'

/-! ### The instructions. Each equation gives the whole next state, so it is the instruction's result and its frame:
every field that `withPixel`, `withRun` or the record update does not name is unchanged. -/

/-- R106, R107, R110: every opcode produces the pixels of the table, computed from `prev` and the cache at the start of
the step; it overshoots as a whole or commits them in order and advances by its length; only RUN produces more than one
pixel, so only RUN can overshoot while `count < target`. -/
def Obligations.EveryOpcodeCommitsItsPixelsOrOvershoots : Prop :=
  ∀ (i : Instr) (s : State), i ≠ .endMarker →
    exec i s = (if s.target.toNat < s.count.toNat + (pixelsOf i s.prev s.cache).length
      then .next { s with fsm := .error, err := .tooManyPixels }
      else .next { commitAll (pixelsOf i s.prev s.cache) s with pos := s.pos + i.length }) ∧
    (i.wellFormed = true →
      1 ≤ (pixelsOf i s.prev s.cache).length ∧ (pixelsOf i s.prev s.cache).length ≤ 62) ∧
    ((∀ k, i ≠ .run k) →
      (pixelsOf i s.prev s.cache).length = 1 ∧
      (s.count.toNat < s.target.toNat → ∃ t, exec i s = .next t ∧ t.fsm = s.fsm ∧ t.err = s.err))

/-- R130: RGB, its step on its four bytes, its truncation, and its place after the last pixel under `Strict`. -/
def Obligations.RgbCommitsLiteralColourAndCarriedAlpha : Prop :=
  ∀ (s : State) (r g b : Byte),
    (s.count.toNat < s.target.toNat →
      exec (.rgb r g b) s = .next (s.withPixel ⟨r, g, b, s.prev.a⟩ 4)) ∧
    (s.running → s.count.toNat < s.target.toNat → s.payload.readRange s.pos 4 = some [0xFE, r, g, b] →
      step s = .next (s.withPixel ⟨r, g, b, s.prev.a⟩ 4)) ∧
    (s.running → s.count.toNat < s.target.toNat → s.payload.readByte s.pos = some 0xFE →
      s.payload.len < s.pos + 4 → step s = .next { s with fsm := .error, err := .tooFewPixels }) ∧
    (s.running → s.count = s.target → s.config.trailing = .strict → s.payload.readByte s.pos = some 0xFE →
      step s = .next { s with fsm := .error, err := .tooManyPixels })

/-- R131: RGBA, its step on its five bytes, its truncation, and its place after the last pixel under `Strict`; the
header's channel count is in no clause. -/
def Obligations.RgbaCommitsFourLiteralChannels : Prop :=
  ∀ (s : State) (r g b a : Byte),
    (s.count.toNat < s.target.toNat →
      exec (.rgba r g b a) s = .next (s.withPixel ⟨r, g, b, a⟩ 5)) ∧
    (s.running → s.count.toNat < s.target.toNat → s.payload.readRange s.pos 5 = some [0xFF, r, g, b, a] →
      step s = .next (s.withPixel ⟨r, g, b, a⟩ 5)) ∧
    (s.running → s.count.toNat < s.target.toNat → s.payload.readByte s.pos = some 0xFF →
      s.payload.len < s.pos + 5 → step s = .next { s with fsm := .error, err := .tooFewPixels }) ∧
    (s.running → s.count = s.target → s.config.trailing = .strict → s.payload.readByte s.pos = some 0xFF →
      step s = .next { s with fsm := .error, err := .tooManyPixels })

/-- R140: INDEX commits what the slot holds, with no hash check, and writes it to the slot of its hash; its step on any
tag 0x00 to 0x3F, and after the last pixel under `Strict` where no full END marker starts. -/
def Obligations.IndexCommitsTheSlotContent : Prop :=
  ∀ s : State,
    (∀ i : Slot, s.count.toNat < s.target.toNat →
      exec (.index i) s = .next (s.withPixel (cacheRead i s) 1)) ∧
    (∀ t : Byte, t.toNat ≤ 0x3F → s.running → s.payload.readByte s.pos = some t →
      (s.count.toNat < s.target.toNat →
        step s = .next (s.withPixel (cacheRead (BitVec.ofNat 6 t.toNat) s) 1)) ∧
      (s.count = s.target → s.config.trailing = .strict →
        s.payload.readRange s.pos 8 ≠ some [0, 0, 0, 0, 0, 0, 0, 1] →
        step s = .next { s with fsm := .error, err := .tooManyPixels }))

/-- R150: DIFF adds its deltas to red, green and blue and keeps alpha; its step on any tag 0x40 to 0x7F, with the fields
written out, and after the last pixel under `Strict`. -/
def Obligations.DiffAddsSmallDeltas : Prop :=
  ∀ s : State,
    (∀ dr dg db : Int, s.count.toNat < s.target.toNat →
      exec (.diff dr dg db) s =
        .next (s.withPixel ⟨add8 s.prev.r dr, add8 s.prev.g dg, add8 s.prev.b db, s.prev.a⟩ 1)) ∧
    (∀ t : Byte, 0x40 ≤ t.toNat → t.toNat ≤ 0x7F → s.running → s.payload.readByte s.pos = some t →
      (s.count.toNat < s.target.toNat →
        step s = .next (s.withPixel
          ⟨add8 s.prev.r ((t.toNat / 16 % 4 : Nat) - 2), add8 s.prev.g ((t.toNat / 4 % 4 : Nat) - 2),
            add8 s.prev.b ((t.toNat % 4 : Nat) - 2), s.prev.a⟩ 1)) ∧
      (s.count = s.target → s.config.trailing = .strict →
        step s = .next { s with fsm := .error, err := .tooManyPixels }))

/-- R151: LUMA adds a green delta, and red and blue deltas relative to it, and keeps alpha; its step on any tag 0x80 to
0xBF and any second byte, its truncation, and after the last pixel under `Strict`. -/
def Obligations.LumaAddsGreenRelativeDeltas : Prop :=
  ∀ s : State,
    (∀ dg drg dbg : Int, s.count.toNat < s.target.toNat →
      exec (.luma dg drg dbg) s =
        .next (s.withPixel
          ⟨add8 s.prev.r (dg + drg), add8 s.prev.g dg, add8 s.prev.b (dg + dbg), s.prev.a⟩ 2)) ∧
    (∀ t : Byte, 0x80 ≤ t.toNat → t.toNat ≤ 0xBF → s.running → s.payload.readByte s.pos = some t →
      (∀ u : Byte, s.count.toNat < s.target.toNat → s.payload.readRange s.pos 2 = some [t, u] →
        step s = .next (s.withPixel
          ⟨add8 s.prev.r (((t.toNat % 64 : Nat) - 32) + ((u.toNat / 16 : Nat) - 8)),
            add8 s.prev.g ((t.toNat % 64 : Nat) - 32),
            add8 s.prev.b (((t.toNat % 64 : Nat) - 32) + ((u.toNat % 16 : Nat) - 8)), s.prev.a⟩ 2)) ∧
      (s.count.toNat < s.target.toNat → s.payload.len < s.pos + 2 →
        step s = .next { s with fsm := .error, err := .tooFewPixels }) ∧
      (s.count = s.target → s.config.trailing = .strict →
        step s = .next { s with fsm := .error, err := .tooManyPixels }))

/-- R170: RUN commits `prev` `k` times or, if that is more than the pixels still wanted, raises TooManyPixels and commits
nothing; its step on any tag 0xC0 to 0xFD, where `k` is the low six bits plus one, and after the last pixel under
`Strict`. -/
def Obligations.RunRepeatsThePreviousPixel : Prop :=
  ∀ s : State,
    (∀ k : Nat, 1 ≤ k →
      (s.count.toNat + k ≤ s.target.toNat → exec (.run k) s = .next (s.withRun k)) ∧
      (s.count.toNat < s.target.toNat → s.target.toNat < s.count.toNat + k →
        exec (.run k) s = .next { s with fsm := .error, err := .tooManyPixels })) ∧
    (∀ t : Byte, 0xC0 ≤ t.toNat → t.toNat ≤ 0xFD → s.running → s.payload.readByte s.pos = some t →
      (s.count.toNat + (t.toNat % 64 + 1) ≤ s.target.toNat → step s = .next (s.withRun (t.toNat % 64 + 1))) ∧
      (s.count.toNat < s.target.toNat → s.target.toNat < s.count.toNat + (t.toNat % 64 + 1) →
        step s = .next { s with fsm := .error, err := .tooManyPixels }) ∧
      (s.count = s.target → s.config.trailing = .strict →
        step s = .next { s with fsm := .error, err := .tooManyPixels }))

/-- R181: at the target the END marker is consumed and the decode is DONE; no pixel, no `prev`, no cache write. Before
the target nothing is recognised as a terminator: no step ends DONE. -/
def Obligations.EndMarkerIsConsumedAtTheTarget : Prop :=
  ∀ s : State,
    (s.count = s.target →
      exec .endMarker s = .next { s with pos := s.pos + 8, fsm := .done } ∧
      (s.running → s.payload.readRange s.pos 8 = some [0, 0, 0, 0, 0, 0, 0, 1] →
        step s = .next { s with pos := s.pos + 8, fsm := .done })) ∧
    (s.count ≠ s.target → ∀ t, step s = .next t → t.fsm ≠ .done)

/-- R184: before the target the marker's bytes run as seven `INDEX 0` and one `INDEX 1`, eight pixels, and terminate
nothing. The seven are slot 0's pixel; the eighth is slot 1's, which the first commit may have written. -/
def Obligations.EarlyMarkerRunsAsEightIndexOpcodes : Prop :=
  ∀ s : State, s.running → s.count.toNat + 8 ≤ s.target.toNat →
    s.payload.readRange s.pos 8 = some [0, 0, 0, 0, 0, 0, 0, 1] →
    ∃ t : State, Host.Core.run Sys2Proof.core 8 s = .next t ∧ t.fsm = .busy ∧ t.pos = s.pos + 8 ∧
      t.count = s.count + 8 ∧
      t.out = s.out ++ List.replicate 7 (cacheRead 0 s) ++
        [if pixelHash (cacheRead 0 s) = 1 then cacheRead 0 s else cacheRead 1 s] ∧
      t.prev = (if pixelHash (cacheRead 0 s) = 1 then cacheRead 0 s else cacheRead 1 s)

/-- R171: the `k` commits of a RUN make one cache write, of `prev` into its own slot; it changes nothing where the slot
holds `prev` already; as the first opcode of a decode it changes slot 53, which `INDEX 53` then shows. -/
def Obligations.RunWritesTheCacheOnce : Prop :=
  ∀ (s t : State) (k : Nat), 1 ≤ k → s.count.toNat + k ≤ s.target.toNat → exec (.run k) s = .next t →
    cacheRead (pixelHash s.prev) t = s.prev ∧
    (∀ j : Slot, j ≠ pixelHash s.prev → cacheRead j t = cacheRead j s) ∧
    (cacheRead (pixelHash s.prev) s = s.prev → t.cache = s.cache) ∧
    (∀ (h : Header) (s₀ : State), s = start h s₀ →
      pixelHash s.prev = 53 ∧ cacheRead 53 s = ⟨0, 0, 0, 0⟩ ∧ cacheRead 53 t = ⟨0, 0, 0, 255⟩ ∧
      (s.count.toNat + k < s.target.toNat →
        exec (.index 53) t = .next (t.withPixel ⟨0, 0, 0, 255⟩ 1) ∧
        exec (.index 53) s = .next (s.withPixel ⟨0, 0, 0, 0⟩ 1)))

/-- R247, R249: an INDEX reads the slot as the opcode just before it left it: after any opcode, `INDEX hash(prev)` gives
`prev` again. -/
def Obligations.NextIndexSeesTheLastCommit : Prop :=
  ∀ (i : Instr) (s t : State), i.wellFormed = true → i ≠ .endMarker →
    s.count.toNat + (pixelsOf i s.prev s.cache).length < s.target.toNat → exec i s = .next t →
    cacheRead (pixelHash t.prev) t = t.prev ∧
    exec (.index (pixelHash t.prev)) t = .next (t.withPixel t.prev 1)

/-! ### The step -/

/-- R101, R104: where the bytes at `pos` decode, a step is `exec` of what they decode to; `exec` itself moves `pos`. -/
def Obligations.StepRunsTheDecodedInstruction : Prop :=
  ∀ (s : State) (i : Instr) (n : Nat) (bs : List Byte), s.running → s.payload.readRange s.pos n = some bs →
    (s.count ≠ s.target → decodeOpcode bs = .ok i → step s = exec i s) ∧
    (s.count = s.target → decodeMarker bs = .ok i → step s = exec i s)

/-- The model's placing of a table word (notes/assumptions/3.md): on a block that is not BUSY the very next step runs the
instruction the word decodes to. -/
def Obligations.PlacedWordIsTheNextInstruction : Prop :=
  ∀ (s : State) (nbits w : Nat) (i : Instr), s.fsm ≠ .busy → decodeTableWord nbits w = some i →
    step (s.withFetchWord nbits w) = exec i (s.withFetchWord nbits w)

/-- R103, R105: an exhausted payload or a truncated opcode before the target is TooFewPixels, with nothing committed; a
one-byte opcode cannot be truncated. -/
def Obligations.MissingBytesAreTooFewPixels : Prop :=
  ∀ s : State, s.running → s.count.toNat < s.target.toNat →
    (s.payload.len - s.pos = 0 → step s = .next { s with fsm := .error, err := .tooFewPixels }) ∧
    (∀ t : Byte, s.payload.readByte s.pos = some t →
      (s.payload.len - s.pos < tagLength t → step s = .next { s with fsm := .error, err := .tooFewPixels }) ∧
      (tagLength t = 1 → ∃ i, i.length = 1 ∧ step s = exec i s))

/-- R102, R180, R182, R183: the completion check, branch by branch. -/
def Obligations.CompletionCheckBranches : Prop :=
  ∀ s : State, s.running → s.count = s.target →
    step s =
      if s.payload.len - s.pos = 0 then .next { s with fsm := .done }
      else if s.payload.readRange s.pos 8 = some [0, 0, 0, 0, 0, 0, 0, 1] then
        .next { s with pos := s.pos + 8, fsm := .done }
      else if s.config.trailing = .ignoreTrailing then .next { s with fsm := .done }
      else .next { s with fsm := .error, err := .tooManyPixels }

/-- R185: an image of width 0 or height 0 has target 0, and its first step is the completion check. -/
def Obligations.ZeroPixelImageCompletesAtOnce : Prop :=
  ∀ (h : Header) (s : State), (h.width = 0 ∨ h.height = 0) → s.fsm ≠ .busy → s.dutyBroken = none →
    (start h s).target = 0 ∧
    (s.payload.len = 0 → step (start h s) = .next { start h s with fsm := .done }) ∧
    (s.payload.readRange 0 8 = some [0, 0, 0, 0, 0, 0, 0, 1] →
      step (start h s) = .next { start h s with pos := 8, fsm := .done }) ∧
    (s.payload.len ≠ 0 → s.payload.readRange 0 8 ≠ some [0, 0, 0, 0, 0, 0, 0, 1] →
      (s.config.trailing = .strict →
        step (start h s) = .next { start h s with fsm := .error, err := .tooManyPixels }) ∧
      (s.config.trailing = .ignoreTrailing → step (start h s) = .next { start h s with fsm := .done }))

/-- R211: a step that ends in ERROR has written `fsm` and `err` and nothing else, and the kind is one of two. -/
def Obligations.ErroringStepWritesOnlyFsmAndErr : Prop :=
  ∀ s t : State, step s = .next t → t.fsm = .error →
    t = { s with fsm := .error, err := t.err } ∧ (t.err = .tooFewPixels ∨ t.err = .tooManyPixels)

/-- R100, R212: a BUSY decoder whose host kept its duties always has a step; IDLE, DONE and ERROR have none, which the
model answers with the fault `noStep` (notes/assumptions/6.md). -/
def Obligations.OnlyABusyDecoderHasAStep : Prop :=
  (∀ s : State, s.running → ∃ t, step s = .next t) ∧
  (∀ s : State, s.fsm ≠ .busy → s.dutyBroken = none → step s = .fault (.noStep s.fsm))

/-- R215: at most one error a step, by the first check that fails: the completion check, exhaustion, truncation,
overshoot; and no error where none fails. -/
def Obligations.ErrorChecksRunInOrder : Prop :=
  ∀ s : State, s.running →
    (s.count = s.target → ∃ t, step s = .next t ∧
      (t.fsm = .error → t.err = .tooManyPixels ∧ s.config.trailing = .strict)) ∧
    (s.count ≠ s.target → s.payload.readByte s.pos = none →
      step s = .next { s with fsm := .error, err := .tooFewPixels }) ∧
    (∀ b : Byte, s.count ≠ s.target → s.payload.readByte s.pos = some b →
      (s.payload.len - s.pos < tagLength b → step s = .next { s with fsm := .error, err := .tooFewPixels }) ∧
      (tagLength b ≤ s.payload.len - s.pos → ∃ i, fetch s = .ok i ∧
        (s.target.toNat < s.count.toNat + (pixelsOf i s.prev s.cache).length →
          step s = .next { s with fsm := .error, err := .tooManyPixels }) ∧
        (s.count.toNat + (pixelsOf i s.prev s.cache).length ≤ s.target.toNat →
          ∃ t, step s = .next t ∧ t.fsm = .busy ∧ t.err = s.err)))

/-- The frame of every step: the parameters, the header registers, the target, the payload and the refusal mark are
unchanged (R27, R28, R51); `out` is only appended to, by one pixel a count (R26, R31, R61); `pos` never decreases
(R25). -/
def Obligations.StepKeepsHeaderTargetAndPayload : Prop :=
  ∀ s t : State, step s = .next t →
    t.config = s.config ∧ t.hdrWidth = s.hdrWidth ∧ t.hdrHeight = s.hdrHeight ∧
    t.hdrChannels = s.hdrChannels ∧ t.hdrColorspace = s.hdrColorspace ∧ t.target = s.target ∧
    t.payload = s.payload ∧ t.dutyBroken = s.dutyBroken ∧ s.pos ≤ t.pos ∧
    ∃ ps : List Pixel, t.out = s.out ++ ps ∧ t.count = s.count + BitVec.ofNat 64 ps.length

/-- R93, R199: the channel count and the colorspace change no step, and the colorspace no byte of the result. -/
def Obligations.ChannelsAndColorspaceDoNotChangeDecoding : Prop :=
  ∀ (s : State) (ch : Channels) (cs : Colorspace),
    (∀ t, step s = .next t →
      step { s with hdrChannels := ch, hdrColorspace := cs } =
        .next { t with hdrChannels := ch, hdrColorspace := cs }) ∧
    (∀ r, step s = .fault r → step { s with hdrChannels := ch, hdrColorspace := cs } = .fault r) ∧
    (∀ r, step s = .refused r → step { s with hdrChannels := ch, hdrColorspace := cs } = .refused r) ∧
    observe { s with hdrColorspace := cs } = observe s ∧ readBuffer { s with hdrColorspace := cs } = readBuffer s

/-- R51: a step reads no payload byte outside `[pos, pos + n)` for its opcode's length `n`, or `[pos, pos + 8)` at the
completion check: with another payload of the same length that agrees there, it does the same. -/
def Obligations.OnlyTheOpcodesOwnBytesAreRead : Prop :=
  ∀ (s t : State) (m : Memory), step s = .next t → m.len = s.payload.len →
    (s.count = s.target → ∀ a, s.pos ≤ a → a < s.pos + 8 → m.readByte a = s.payload.readByte a) →
    (s.count ≠ s.target → ∀ b, s.payload.readByte s.pos = some b →
      ∀ a, s.pos ≤ a → a < s.pos + tagLength b → m.readByte a = s.payload.readByte a) →
    step { s with payload := m } = .next { t with payload := m }

/-! ### The machine -/

/-- Hardware reset, with any parameters, meets the invariant. -/
def Obligations.ResetMeetsTheInvariant : Prop :=
  ∀ c : Config, Inv { State.reset with config := c }

/-- Every step keeps the invariant (R21, R22, R25 to R27, R30, R31). -/
def Obligations.StepKeepsTheInvariant : Prop :=
  ∀ s t : State, Inv s → step s = .next t → Inv t

/-- Every host action keeps the invariant. -/
def Obligations.HostActionsKeepTheInvariant : Prop :=
  ∀ (a : HostAction) (s t : State), Inv s → hostAct a s = .next t → Inv t

/-- Every state the machine can come to meets the invariant, and every BUSY decode whose host kept its duties goes on. -/
def Obligations.EveryReachableStateIsSafe : Prop :=
  ∀ s : State, Reachable s → Inv s ∧ (s.running → ∃ t, step s = .next t)

/-- R23: a slot holds the zero pixel or a pixel of its own hash; slot 0 always one of hash 0; another slot holds the
zero pixel exactly when no committed pixel had its hash. -/
def Obligations.CacheSlotsHoldZeroOrTheirOwnHash : Prop :=
  ∀ s : State, Inv s → (s.fsm = .busy ∨ s.fsm = .done) →
    (∀ i : Slot, cacheRead i s = ⟨0, 0, 0, 0⟩ ∨ pixelHash (cacheRead i s) = i) ∧
    pixelHash (cacheRead 0 s) = 0 ∧
    (∀ i : Slot, i ≠ 0 → (cacheRead i s = ⟨0, 0, 0, 0⟩ ↔ ∀ p ∈ s.out, pixelHash p ≠ i))

/-- R24: once a pixel has been committed, `cache[hash(prev)] = prev`; at the start of a decode it does not hold. -/
def Obligations.PrevIsInItsSlotAfterTheFirstPixel : Prop :=
  (∀ s : State, Inv s → (s.fsm = .busy ∨ s.fsm = .done) → s.count ≠ 0 → cacheRead (pixelHash s.prev) s = s.prev) ∧
  (∀ (h : Header) (s : State), (start h s).prev = ⟨0, 0, 0, 255⟩ ∧ pixelHash (start h s).prev = 53 ∧
    cacheRead 53 (start h s) = ⟨0, 0, 0, 0⟩)

/-- R111: a BUSY step ends the decode, or commits at least 1 pixel, advances `pos` by at least 1 and keeps
`count <= target`; so a decode ends within `min(len, target) + 1` steps of its start, and from any point of it within as
many as the bytes and the pixels still to come allow. -/
def Obligations.EveryDecodeEndsInBoundedSteps : Prop :=
  (∀ s : State, Inv s → s.running → ∃ t, step s = .next t ∧
    (t.ended = true ∨
      (t.running ∧ s.count.toNat + 1 ≤ t.count.toNat ∧ t.count.toNat ≤ t.target.toNat ∧
        s.pos + 1 ≤ t.pos ∧ t.pos ≤ t.payload.len))) ∧
  (∀ s : State, Inv s → s.running →
    ∃ (n : Nat) (t : State), n ≤ min (s.payload.len - s.pos) (s.target.toNat - s.count.toNat) + 1 ∧
      Host.Core.run Sys2Proof.core n s = .next t ∧ t.ended = true) ∧
  (∀ (h : Header) (s : State), Inv s → s.fsm ≠ .busy →
    ∃ (n : Nat) (t : State), n ≤ min s.payload.len (h.width.toNat * h.height.toNat) + 1 ∧
      Host.Core.run Sys2Proof.core n (start h s) = .next t ∧ t.ended = true)

/-- R114, R197: in DONE, `count = target`, `out` has `width * height` pixels and the packed buffer
`width * height * channels` bytes; on failure nothing is packed. -/
def Obligations.SuccessfulDecodeHasEveryPixel : Prop :=
  (∀ s : State, s.fsm = .error → readBuffer s = none) ∧
  ∀ s : State, Inv s → s.fsm = .done →
    s.count = s.target ∧ s.out.length = s.target.toNat ∧
    s.out.length = s.hdrWidth.toNat * s.hdrHeight.toNat ∧
    observe s = some (.ok s.out) ∧
    ∃ buf, readBuffer s = some buf ∧
      buf.length = s.hdrWidth.toNat * s.hdrHeight.toNat * (if s.hdrChannels = .rgb then 3 else 4)

/-! ### Reset, start and the host -/

/-- R240: hardware reset, at any time, leaves IDLE and NONE and abandons the decode: there is no observation of it, and
no step until `start`. The refusal mark goes with it (notes/assumptions/7.md). -/
def Obligations.HardwareResetLeavesIdle : Prop :=
  ∀ s : State, ∃ t, hostAct .hardReset s = .next t ∧ t.fsm = .idle ∧ t.err = .none ∧ t.dutyBroken = none ∧
    observe t = none ∧ step t = .fault (.noStep .idle)

/-- R241, R27: `start(H)` from IDLE, DONE or ERROR gives every item of decode state its start value, with the exact
pixel target, and changes nothing else. -/
def Obligations.StartInitialisesTheDecode : Prop :=
  ∀ (h : Header) (s : State), s.fsm ≠ .busy →
    ∃ t, hostAct (.start h) s = .next t ∧ t.target.toNat = h.width.toNat * h.height.toNat ∧
      (∀ i : Slot, cacheRead i t = ⟨0, 0, 0, 0⟩) ∧
      t = { s with
        hdrWidth := h.width, hdrHeight := h.height, hdrChannels := h.channels, hdrColorspace := h.colorspace
        target := t.target, prev := ⟨0, 0, 0, 255⟩, cache := t.cache, count := 0, pos := 0, out := []
        err := .none, fsm := .busy }

/-- R36, R245: nothing of an earlier decode is visible to the next: two blocks with the same parameters, payload and mark
are the same block after the same `start`. -/
def Obligations.NoStateCarriesIntoTheNextDecode : Prop :=
  ∀ (h : Header) (s s' : State), s.config = s'.config → s.payload = s'.payload → s.dutyBroken = s'.dutyBroken →
    start h s = start h s'

/-- R242, R243: a `start` or a load while BUSY, alone or in the booting of a file, marks the decode; a marked decode is
refused, and only hardware reset takes the mark away. The model's own choices in it: that every load marks, that the
first mark stays, and that reset clears it (notes/assumptions/7.md); that booting a file breaks a duty unless a separate
parser has stopped the host (9.md); that a marked decode is not observed (16.md); that nothing but the mark changes, the
payload's bytes among it (18.md). -/
def Obligations.BrokenHostDutyIsRefusedUntilReset : Prop :=
  (∀ s : State, s.fsm = .busy →
    (∀ h : Header, hostAct (.start h) s =
      .next { s with dutyBroken := some (s.dutyBroken.getD .startWhileBusy) }) ∧
    (∀ bs : List Byte, hostAct (.loadPayload bs) s =
      .next { s with dutyBroken := some (s.dutyBroken.getD .payloadChanged) }) ∧
    (∀ (file : List Byte) (H : Header), parseHeader (file.take 14) = .ok H →
      hostAct (.startFile file) s = .next { s with dutyBroken := some (s.dutyBroken.getD .payloadChanged) }) ∧
    (∀ (file : List Byte) (e : ErrKind), parseHeader (file.take 14) = .error e →
      hostAct (.startFile file) s = .next (if s.config.headerIntegrated
        then { s with dutyBroken := some (s.dutyBroken.getD .startWhileBusy) } else s))) ∧
  (∀ (s : State) (d : HostDuty), s.dutyBroken = some d →
    step s = .refused (.hostDutyBroken d) ∧ observe s = none ∧
    ∀ (a : HostAction) (t : State), a ≠ .hardReset → hostAct a s = .next t → t.dutyBroken = some d)

/-- R51, R253: a block that is not BUSY takes a payload of an accepted length, and nothing else changes; one longer than
`MAX_PAYLOAD_LEN` is refused by name (the refusal is the model's choice, notes/assumptions/5.md). -/
def Obligations.LoadPlacesAnAcceptedPayload : Prop :=
  ∀ (s : State) (bs : List Byte), s.fsm ≠ .busy →
    ((∀ m, s.config.maxPayloadLen = some m → bs.length ≤ m) →
      hostAct (.loadPayload bs) s = .next { s with payload := Memory.ofBytes bs }) ∧
    (∀ m, s.config.maxPayloadLen = some m → m < bs.length →
      hostAct (.loadPayload bs) s = .refused (.payloadTooLong bs.length))

/-! ### The boundary -/

/-- R192: the order of the header checks: the first that fails gives the error. The magic's byte values are those of
notes/assumptions/13.md. -/
def Obligations.HeaderChecksRunInOffsetOrder : Prop :=
  ∀ h : List Byte,
    (h.length < 4 → parseHeader h = .error .tooShortHeader) ∧
    (4 ≤ h.length → h.take 4 ≠ [0x71, 0x6F, 0x69, 0x66] → parseHeader h = .error .invalidMagic) ∧
    (h.take 4 = [0x71, 0x6F, 0x69, 0x66] → h.length < 13 → parseHeader h = .error .tooShortHeader) ∧
    (∀ c, h.take 4 = [0x71, 0x6F, 0x69, 0x66] → h[12]? = some c →
      (c ≠ 3 ∧ c ≠ 4 → parseHeader h = .error .invalidChannels) ∧
      (c = 3 ∨ c = 4 → h.length = 13 → parseHeader h = .error .tooShortHeader) ∧
      (∀ cs, c = 3 ∨ c = 4 → h[13]? = some cs →
        (cs ≠ 0 ∧ cs ≠ 1 → parseHeader h = .error .invalidColorspace) ∧
        (cs = 0 ∨ cs = 1 → ∃ H, parseHeader h = .ok H ∧ (H.channels = .rgb ↔ c = 3) ∧
          (H.colorspace = .srgb ↔ cs = 0))))

/-- R191: the header's fields, big-endian, at their offsets. -/
def Obligations.HeaderDimensionsAreBigEndian : Prop :=
  ∀ (b4 b5 b6 b7 b8 b9 b10 b11 c cs : Byte) (H : Header),
    parseHeader [0x71, 0x6F, 0x69, 0x66, b4, b5, b6, b7, b8, b9, b10, b11, c, cs] = .ok H →
    H.width.toNat = b4.toNat * 2 ^ 24 + b5.toNat * 2 ^ 16 + b6.toNat * 2 ^ 8 + b7.toNat ∧
    H.height.toNat = b8.toNat * 2 ^ 24 + b9.toNat * 2 ^ 16 + b10.toNat * 2 ^ 8 + b11.toNat ∧
    (c = 3 ∧ H.channels = .rgb ∨ c = 4 ∧ H.channels = .rgba) ∧
    (cs = 0 ∧ H.colorspace = .srgb ∨ cs = 1 ∧ H.colorspace = .linear)

/-- R194, R244: booting a file on a block that is not BUSY: a good header starts the decode of the bytes from offset 14
where `MAX_PAYLOAD_LEN` accepts them (refusing more is the model's choice, notes/assumptions/5.md); a header error sets ERROR with its code where the parser is integrated, and leaves the block alone where it is not
(notes/assumptions/9.md). -/
def Obligations.BootingAFileStartsOrReportsTheHeaderError : Prop :=
  ∀ (s : State) (file : List Byte), s.fsm ≠ .busy →
    (∀ H, parseHeader (file.take 14) = .ok H →
      ((∀ m, s.config.maxPayloadLen = some m → (file.drop 14).length ≤ m) →
        hostAct (.startFile file) s = .next (start H { s with payload := Memory.ofBytes (file.drop 14) })) ∧
      (∀ m, s.config.maxPayloadLen = some m → m < (file.drop 14).length →
        hostAct (.startFile file) s = .refused (.payloadTooLong (file.drop 14).length))) ∧
    (∀ e, parseHeader (file.take 14) = .error e →
      (s.config.headerIntegrated = true → hostAct (.startFile file) s = .next { s with fsm := .error, err := e }) ∧
      (s.config.headerIntegrated = false → hostAct (.startFile file) s = .next s) ∧
      (e = .invalidMagic ∨ e = .tooShortHeader ∨ e = .invalidChannels ∨ e = .invalidColorspace))

/-- R195, R196: the packed bytes, pixel by pixel in scan order; alpha is dropped for RGB. The host has them in DONE, and
nothing is packed in any other state. -/
def Obligations.PackedBytesAreInScanOrder : Prop :=
  (∀ s : State, s.dutyBroken = none → s.fsm = .done → readBuffer s = some (pack s.out s.hdrChannels)) ∧
  (∀ s : State, s.fsm ≠ .done → readBuffer s = none) ∧
  (∀ c : Channels, pack [] c = []) ∧
  (∀ (p : Pixel) (ps : List Pixel), pack (p :: ps) .rgb = [p.r, p.g, p.b] ++ pack ps .rgb) ∧
  (∀ (p : Pixel) (ps : List Pixel), pack (p :: ps) .rgba = [p.r, p.g, p.b, p.a] ++ pack ps .rgba)

/-- R112, R214: the pixels in DONE; the kind alone in ERROR, so two failed decodes of one kind are observed alike. That
there is no observation before the end, in IDLE and BUSY, is the model's choice (notes/assumptions/16.md). -/
def Obligations.ErrorObservationHoldsNoPixels : Prop :=
  (∀ s : State, s.dutyBroken = none → s.fsm = .done → observe s = some (.ok s.out)) ∧
  (∀ s : State, s.dutyBroken = none → s.fsm = .error → observe s = some (.err s.err) ∧ readBuffer s = none) ∧
  (∀ s : State, s.fsm = .idle ∨ s.fsm = .busy → observe s = none ∧ readBuffer s = none) ∧
  (∀ s s' : State, s.dutyBroken = none → s'.dutyBroken = none → s.fsm = .error → s'.fsm = .error →
    s.err = s'.err → observe s = observe s')

/-- R29, R30, R210: the codes of `fsm` and `err`; no two states and no two kinds share one. R28, R33: a poll gives these
codes, the header registers with their bits, and the debug views `count`, `target` and `pos` as they stand. -/
def Obligations.StatusCodesAreTheSpecs : Prop :=
  Fsm.code .idle = 0b00 ∧ Fsm.code .busy = 0b01 ∧ Fsm.code .done = 0b10 ∧ Fsm.code .error = 0b11 ∧
  ErrKind.code .none = 0 ∧ ErrKind.code .invalidMagic = 1 ∧ ErrKind.code .tooShortHeader = 2 ∧
  ErrKind.code .invalidChannels = 3 ∧ ErrKind.code .invalidColorspace = 4 ∧ ErrKind.code .invalidPixel = 5 ∧
  ErrKind.code .tooFewPixels = 6 ∧ ErrKind.code .tooManyPixels = 7 ∧
  (∀ s : State,
    (pollStatus s).fsm = s.fsm.code ∧ (pollStatus s).err = s.err.code ∧
    (pollStatus s).hdrWidth = s.hdrWidth ∧ (pollStatus s).hdrHeight = s.hdrHeight ∧
    (pollStatus s).hdrChannels = (if s.hdrChannels = .rgb then 0 else 1) ∧
    (pollStatus s).hdrColorspace = (if s.hdrColorspace = .srgb then 0 else 1) ∧
    (pollStatus s).count = s.count ∧ (pollStatus s).target = s.target ∧ (pollStatus s).pos = s.pos) ∧
  (∀ s s' : State, (pollStatus s).fsm = (pollStatus s').fsm → s.fsm = s'.fsm) ∧
  (∀ s s' : State, (pollStatus s).err = (pollStatus s').err → s.err = s'.err)

/-- R198: the metadata the host reads. -/
def Obligations.MetadataGivesDimensionsAndFormat : Prop :=
  ∀ (h : Header) (s : State),
    readMetadata (start h s) =
      { width := h.width, height := h.height, format := if h.channels = .rgb then .rgb8 else .rgba8
        colorspace := h.colorspace } ∧
    (∀ t, step s = .next t → readMetadata t = readMetadata s)
end

