-- ==== Sys2Proof/Laws/Decode.lean ====
section
/-! SUPPORT. What the decoders can answer. -/

namespace Sys2Proof

/-- `Length(t)` is the length of the opcode that the priority decode selects (R92). -/
theorem tagLength_classify (t : Byte) :
    tagLength t = match classify t with
      | .rgb => 4
      | .rgba => 5
      | .luma => 2
      | .index => 1
      | .diff => 1
      | .run => 1 := by
  unfold tagLength classify
  split
  · rfl
  · split
    · rfl
    · by_cases h0 : field t 6 2 = 0b00#2
      · simp [h0]
      · by_cases h1 : field t 6 2 = 0b01#2
        · simp [h1]
        · by_cases h2 : field t 6 2 = 0b10#2 <;> simp [h0, h1, h2]

theorem tagLength_pos (t : Byte) : 1 ≤ tagLength t := by
  rw [tagLength_classify]; split <;> omega

/-- What a decoded opcode says of its bytes: a tag byte, of the opcode's length, and an opcode other than END. -/
theorem decodeOpcode_ok {bs : List Byte} {i : Instr} (h : decodeOpcode bs = .ok i) :
    ∃ t rest, bs = t :: rest ∧ i.length = tagLength t ∧ i.length ≤ bs.length ∧ i ≠ .endMarker := by
  unfold decodeOpcode at h
  split at h
  · cases h
  · rename_i t rest
    refine ⟨t, rest, rfl, ?_⟩
    rw [tagLength_classify]
    split at h <;> rename_i hc <;> simp only [hc]
    all_goals first
      | (split at h <;> cases h <;> simp [Instr.length])
      | (cases h; simp [Instr.length])

/-- With as many bytes as the tag asks for, the decode succeeds (R90). -/
theorem decodeOpcode_total {t : Byte} {rest : List Byte} (h : tagLength t ≤ rest.length + 1) :
    ∃ i, decodeOpcode (t :: rest) = .ok i := by
  rw [tagLength_classify] at h
  unfold decodeOpcode
  split at h <;> rename_i hc <;> simp only [hc]
  · match rest, h with
    | r :: g :: b :: _, _ => exact ⟨_, rfl⟩
  · match rest, h with
    | r :: g :: b :: a :: _, _ => exact ⟨_, rfl⟩
  · match rest, h with
    | u :: _, _ => exact ⟨_, rfl⟩
  all_goals exact ⟨_, rfl⟩

/-- Bytes behind the opcode are not looked at. -/
theorem decodeOpcode_take {bs : List Byte} {i : Instr} (h : decodeOpcode bs = .ok i) :
    decodeOpcode (bs.take i.length) = .ok i := by
  unfold decodeOpcode at h
  split at h
  · cases h
  · split at h <;> rename_i hc
    all_goals first
      | (split at h <;> cases h <;> simp [Instr.length, decodeOpcode, hc])
      | (cases h; simp [Instr.length, decodeOpcode, hc])

/-- The marker decoder only ever answers END. -/
theorem decodeMarker_ok {bs : List Byte} {i : Instr} (h : decodeMarker bs = .ok i) :
    i = .endMarker ∧ bs.take 8 = endMarkerBytes := by
  unfold decodeMarker at h
  split at h
  · cases h; exact ⟨rfl, ‹_›⟩
  · cases h

end Sys2Proof
end

