-- ==== Sys2Proof/Laws/State.lean ====
section
/-! SUPPORT. What each state update leaves in each field, so that no proof unfolds a record update. -/

namespace Sys2Proof.Machine

@[simp] theorem cacheWrite_config (i : Slot) (p : Pixel) (s : State) : (cacheWrite i p s).config = s.config := rfl
@[simp] theorem cacheWrite_fsm (i : Slot) (p : Pixel) (s : State) : (cacheWrite i p s).fsm = s.fsm := rfl
@[simp] theorem cacheWrite_err (i : Slot) (p : Pixel) (s : State) : (cacheWrite i p s).err = s.err := rfl
@[simp] theorem cacheWrite_prev (i : Slot) (p : Pixel) (s : State) : (cacheWrite i p s).prev = s.prev := rfl
@[simp] theorem cacheWrite_cache (i : Slot) (p : Pixel) (s : State) : (cacheWrite i p s).cache = s.cache.set i.toNat p i.isLt := rfl
@[simp] theorem cacheWrite_count (i : Slot) (p : Pixel) (s : State) : (cacheWrite i p s).count = s.count := rfl
@[simp] theorem cacheWrite_target (i : Slot) (p : Pixel) (s : State) : (cacheWrite i p s).target = s.target := rfl
@[simp] theorem cacheWrite_pos (i : Slot) (p : Pixel) (s : State) : (cacheWrite i p s).pos = s.pos := rfl
@[simp] theorem cacheWrite_hdrWidth (i : Slot) (p : Pixel) (s : State) : (cacheWrite i p s).hdrWidth = s.hdrWidth := rfl
@[simp] theorem cacheWrite_hdrHeight (i : Slot) (p : Pixel) (s : State) : (cacheWrite i p s).hdrHeight = s.hdrHeight := rfl
@[simp] theorem cacheWrite_hdrChannels (i : Slot) (p : Pixel) (s : State) : (cacheWrite i p s).hdrChannels = s.hdrChannels := rfl
@[simp] theorem cacheWrite_hdrColorspace (i : Slot) (p : Pixel) (s : State) : (cacheWrite i p s).hdrColorspace = s.hdrColorspace := rfl
@[simp] theorem cacheWrite_out (i : Slot) (p : Pixel) (s : State) : (cacheWrite i p s).out = s.out := rfl
@[simp] theorem cacheWrite_payload (i : Slot) (p : Pixel) (s : State) : (cacheWrite i p s).payload = s.payload := rfl
@[simp] theorem cacheWrite_dutyBroken (i : Slot) (p : Pixel) (s : State) : (cacheWrite i p s).dutyBroken = s.dutyBroken := rfl

@[simp] theorem emit_config (p : Pixel) (s : State) : (emit p s).config = s.config := rfl
@[simp] theorem emit_fsm (p : Pixel) (s : State) : (emit p s).fsm = s.fsm := rfl
@[simp] theorem emit_err (p : Pixel) (s : State) : (emit p s).err = s.err := rfl
@[simp] theorem emit_prev (p : Pixel) (s : State) : (emit p s).prev = s.prev := rfl
@[simp] theorem emit_cache (p : Pixel) (s : State) : (emit p s).cache = s.cache := rfl
@[simp] theorem emit_count (p : Pixel) (s : State) : (emit p s).count = s.count := rfl
@[simp] theorem emit_target (p : Pixel) (s : State) : (emit p s).target = s.target := rfl
@[simp] theorem emit_pos (p : Pixel) (s : State) : (emit p s).pos = s.pos := rfl
@[simp] theorem emit_hdrWidth (p : Pixel) (s : State) : (emit p s).hdrWidth = s.hdrWidth := rfl
@[simp] theorem emit_hdrHeight (p : Pixel) (s : State) : (emit p s).hdrHeight = s.hdrHeight := rfl
@[simp] theorem emit_hdrChannels (p : Pixel) (s : State) : (emit p s).hdrChannels = s.hdrChannels := rfl
@[simp] theorem emit_hdrColorspace (p : Pixel) (s : State) : (emit p s).hdrColorspace = s.hdrColorspace := rfl
@[simp] theorem emit_out (p : Pixel) (s : State) : (emit p s).out = s.out ++ [p] := rfl
@[simp] theorem emit_payload (p : Pixel) (s : State) : (emit p s).payload = s.payload := rfl
@[simp] theorem emit_dutyBroken (p : Pixel) (s : State) : (emit p s).dutyBroken = s.dutyBroken := rfl

@[simp] theorem commit_config (p : Pixel) (s : State) : (commit p s).config = s.config := rfl
@[simp] theorem commit_fsm (p : Pixel) (s : State) : (commit p s).fsm = s.fsm := rfl
@[simp] theorem commit_err (p : Pixel) (s : State) : (commit p s).err = s.err := rfl
@[simp] theorem commit_prev (p : Pixel) (s : State) : (commit p s).prev = p := rfl
@[simp] theorem commit_cache (p : Pixel) (s : State) : (commit p s).cache = s.cache.set (pixelHash p).toNat p (pixelHash p).isLt := rfl
@[simp] theorem commit_count (p : Pixel) (s : State) : (commit p s).count = s.count + 1 := rfl
@[simp] theorem commit_target (p : Pixel) (s : State) : (commit p s).target = s.target := rfl
@[simp] theorem commit_pos (p : Pixel) (s : State) : (commit p s).pos = s.pos := rfl
@[simp] theorem commit_hdrWidth (p : Pixel) (s : State) : (commit p s).hdrWidth = s.hdrWidth := rfl
@[simp] theorem commit_hdrHeight (p : Pixel) (s : State) : (commit p s).hdrHeight = s.hdrHeight := rfl
@[simp] theorem commit_hdrChannels (p : Pixel) (s : State) : (commit p s).hdrChannels = s.hdrChannels := rfl
@[simp] theorem commit_hdrColorspace (p : Pixel) (s : State) : (commit p s).hdrColorspace = s.hdrColorspace := rfl
@[simp] theorem commit_out (p : Pixel) (s : State) : (commit p s).out = s.out ++ [p] := rfl
@[simp] theorem commit_payload (p : Pixel) (s : State) : (commit p s).payload = s.payload := rfl
@[simp] theorem commit_dutyBroken (p : Pixel) (s : State) : (commit p s).dutyBroken = s.dutyBroken := rfl

@[simp] theorem advance_config (n : Nat) (s : State) : (advance n s).config = s.config := rfl
@[simp] theorem advance_fsm (n : Nat) (s : State) : (advance n s).fsm = s.fsm := rfl
@[simp] theorem advance_err (n : Nat) (s : State) : (advance n s).err = s.err := rfl
@[simp] theorem advance_prev (n : Nat) (s : State) : (advance n s).prev = s.prev := rfl
@[simp] theorem advance_cache (n : Nat) (s : State) : (advance n s).cache = s.cache := rfl
@[simp] theorem advance_count (n : Nat) (s : State) : (advance n s).count = s.count := rfl
@[simp] theorem advance_target (n : Nat) (s : State) : (advance n s).target = s.target := rfl
@[simp] theorem advance_pos (n : Nat) (s : State) : (advance n s).pos = s.pos + n := rfl
@[simp] theorem advance_hdrWidth (n : Nat) (s : State) : (advance n s).hdrWidth = s.hdrWidth := rfl
@[simp] theorem advance_hdrHeight (n : Nat) (s : State) : (advance n s).hdrHeight = s.hdrHeight := rfl
@[simp] theorem advance_hdrChannels (n : Nat) (s : State) : (advance n s).hdrChannels = s.hdrChannels := rfl
@[simp] theorem advance_hdrColorspace (n : Nat) (s : State) : (advance n s).hdrColorspace = s.hdrColorspace := rfl
@[simp] theorem advance_out (n : Nat) (s : State) : (advance n s).out = s.out := rfl
@[simp] theorem advance_payload (n : Nat) (s : State) : (advance n s).payload = s.payload := rfl
@[simp] theorem advance_dutyBroken (n : Nat) (s : State) : (advance n s).dutyBroken = s.dutyBroken := rfl

@[simp] theorem raised_config (e : ErrKind) (s : State) : (raised e s).config = s.config := rfl
@[simp] theorem raised_fsm (e : ErrKind) (s : State) : (raised e s).fsm = .error := rfl
@[simp] theorem raised_err (e : ErrKind) (s : State) : (raised e s).err = e := rfl
@[simp] theorem raised_prev (e : ErrKind) (s : State) : (raised e s).prev = s.prev := rfl
@[simp] theorem raised_cache (e : ErrKind) (s : State) : (raised e s).cache = s.cache := rfl
@[simp] theorem raised_count (e : ErrKind) (s : State) : (raised e s).count = s.count := rfl
@[simp] theorem raised_target (e : ErrKind) (s : State) : (raised e s).target = s.target := rfl
@[simp] theorem raised_pos (e : ErrKind) (s : State) : (raised e s).pos = s.pos := rfl
@[simp] theorem raised_hdrWidth (e : ErrKind) (s : State) : (raised e s).hdrWidth = s.hdrWidth := rfl
@[simp] theorem raised_hdrHeight (e : ErrKind) (s : State) : (raised e s).hdrHeight = s.hdrHeight := rfl
@[simp] theorem raised_hdrChannels (e : ErrKind) (s : State) : (raised e s).hdrChannels = s.hdrChannels := rfl
@[simp] theorem raised_hdrColorspace (e : ErrKind) (s : State) : (raised e s).hdrColorspace = s.hdrColorspace := rfl
@[simp] theorem raised_out (e : ErrKind) (s : State) : (raised e s).out = s.out := rfl
@[simp] theorem raised_payload (e : ErrKind) (s : State) : (raised e s).payload = s.payload := rfl
@[simp] theorem raised_dutyBroken (e : ErrKind) (s : State) : (raised e s).dutyBroken = s.dutyBroken := rfl

@[simp] theorem finish_config (s : State) : (finish s).config = s.config := rfl
@[simp] theorem finish_fsm (s : State) : (finish s).fsm = .done := rfl
@[simp] theorem finish_err (s : State) : (finish s).err = s.err := rfl
@[simp] theorem finish_prev (s : State) : (finish s).prev = s.prev := rfl
@[simp] theorem finish_cache (s : State) : (finish s).cache = s.cache := rfl
@[simp] theorem finish_count (s : State) : (finish s).count = s.count := rfl
@[simp] theorem finish_target (s : State) : (finish s).target = s.target := rfl
@[simp] theorem finish_pos (s : State) : (finish s).pos = s.pos := rfl
@[simp] theorem finish_hdrWidth (s : State) : (finish s).hdrWidth = s.hdrWidth := rfl
@[simp] theorem finish_hdrHeight (s : State) : (finish s).hdrHeight = s.hdrHeight := rfl
@[simp] theorem finish_hdrChannels (s : State) : (finish s).hdrChannels = s.hdrChannels := rfl
@[simp] theorem finish_hdrColorspace (s : State) : (finish s).hdrColorspace = s.hdrColorspace := rfl
@[simp] theorem finish_out (s : State) : (finish s).out = s.out := rfl
@[simp] theorem finish_payload (s : State) : (finish s).payload = s.payload := rfl
@[simp] theorem finish_dutyBroken (s : State) : (finish s).dutyBroken = s.dutyBroken := rfl

@[simp] theorem start_config (h : Header) (s : State) : (start h s).config = s.config := rfl
@[simp] theorem start_fsm (h : Header) (s : State) : (start h s).fsm = .busy := rfl
@[simp] theorem start_err (h : Header) (s : State) : (start h s).err = .none := rfl
@[simp] theorem start_prev (h : Header) (s : State) : (start h s).prev = Pixel.init := rfl
@[simp] theorem start_cache (h : Header) (s : State) : (start h s).cache = Cache.zeros := rfl
@[simp] theorem start_count (h : Header) (s : State) : (start h s).count = 0 := rfl
@[simp] theorem start_target (h : Header) (s : State) : (start h s).target = pixelTarget h.width h.height := rfl
@[simp] theorem start_pos (h : Header) (s : State) : (start h s).pos = 0 := rfl
@[simp] theorem start_hdrWidth (h : Header) (s : State) : (start h s).hdrWidth = h.width := rfl
@[simp] theorem start_hdrHeight (h : Header) (s : State) : (start h s).hdrHeight = h.height := rfl
@[simp] theorem start_hdrChannels (h : Header) (s : State) : (start h s).hdrChannels = h.channels := rfl
@[simp] theorem start_hdrColorspace (h : Header) (s : State) : (start h s).hdrColorspace = h.colorspace := rfl
@[simp] theorem start_out (h : Header) (s : State) : (start h s).out = [] := rfl
@[simp] theorem start_payload (h : Header) (s : State) : (start h s).payload = s.payload := rfl
@[simp] theorem start_dutyBroken (h : Header) (s : State) : (start h s).dutyBroken = s.dutyBroken := rfl

@[simp] theorem hardReset_config (s : State) : (hardReset s).config = s.config := rfl
@[simp] theorem hardReset_fsm (s : State) : (hardReset s).fsm = State.reset.fsm := rfl
@[simp] theorem hardReset_err (s : State) : (hardReset s).err = State.reset.err := rfl
@[simp] theorem hardReset_prev (s : State) : (hardReset s).prev = State.reset.prev := rfl
@[simp] theorem hardReset_cache (s : State) : (hardReset s).cache = State.reset.cache := rfl
@[simp] theorem hardReset_count (s : State) : (hardReset s).count = State.reset.count := rfl
@[simp] theorem hardReset_target (s : State) : (hardReset s).target = State.reset.target := rfl
@[simp] theorem hardReset_pos (s : State) : (hardReset s).pos = State.reset.pos := rfl
@[simp] theorem hardReset_hdrWidth (s : State) : (hardReset s).hdrWidth = State.reset.hdrWidth := rfl
@[simp] theorem hardReset_hdrHeight (s : State) : (hardReset s).hdrHeight = State.reset.hdrHeight := rfl
@[simp] theorem hardReset_hdrChannels (s : State) : (hardReset s).hdrChannels = State.reset.hdrChannels := rfl
@[simp] theorem hardReset_hdrColorspace (s : State) : (hardReset s).hdrColorspace = State.reset.hdrColorspace := rfl
@[simp] theorem hardReset_out (s : State) : (hardReset s).out = State.reset.out := rfl
@[simp] theorem hardReset_payload (s : State) : (hardReset s).payload = s.payload := rfl
@[simp] theorem hardReset_dutyBroken (s : State) : (hardReset s).dutyBroken = State.reset.dutyBroken := rfl

@[simp] theorem breach_config (d : HostDuty) (s : State) : (breach d s).config = s.config := by
  unfold breach; split <;> rfl
@[simp] theorem breach_fsm (d : HostDuty) (s : State) : (breach d s).fsm = s.fsm := by
  unfold breach; split <;> rfl
@[simp] theorem breach_err (d : HostDuty) (s : State) : (breach d s).err = s.err := by
  unfold breach; split <;> rfl
@[simp] theorem breach_prev (d : HostDuty) (s : State) : (breach d s).prev = s.prev := by
  unfold breach; split <;> rfl
@[simp] theorem breach_cache (d : HostDuty) (s : State) : (breach d s).cache = s.cache := by
  unfold breach; split <;> rfl
@[simp] theorem breach_count (d : HostDuty) (s : State) : (breach d s).count = s.count := by
  unfold breach; split <;> rfl
@[simp] theorem breach_target (d : HostDuty) (s : State) : (breach d s).target = s.target := by
  unfold breach; split <;> rfl
@[simp] theorem breach_pos (d : HostDuty) (s : State) : (breach d s).pos = s.pos := by
  unfold breach; split <;> rfl
@[simp] theorem breach_hdrWidth (d : HostDuty) (s : State) : (breach d s).hdrWidth = s.hdrWidth := by
  unfold breach; split <;> rfl
@[simp] theorem breach_hdrHeight (d : HostDuty) (s : State) : (breach d s).hdrHeight = s.hdrHeight := by
  unfold breach; split <;> rfl
@[simp] theorem breach_hdrChannels (d : HostDuty) (s : State) : (breach d s).hdrChannels = s.hdrChannels := by
  unfold breach; split <;> rfl
@[simp] theorem breach_hdrColorspace (d : HostDuty) (s : State) : (breach d s).hdrColorspace = s.hdrColorspace := by
  unfold breach; split <;> rfl
@[simp] theorem breach_out (d : HostDuty) (s : State) : (breach d s).out = s.out := by
  unfold breach; split <;> rfl
@[simp] theorem breach_payload (d : HostDuty) (s : State) : (breach d s).payload = s.payload := by
  unfold breach; split <;> rfl

/-- A breach leaves a mark: the first one (R242). -/
@[simp] theorem breach_dutyBroken (d : HostDuty) (s : State) :
    (breach d s).dutyBroken = some (s.dutyBroken.getD d) := by
  unfold breach; split <;> simp [*]

@[simp] theorem commitAll_config (ps : List Pixel) (s : State) : (commitAll ps s).config = s.config := by
  induction ps generalizing s with
  | nil => rfl
  | cons p ps ih => simp [commitAll, ih]
@[simp] theorem commitAll_fsm (ps : List Pixel) (s : State) : (commitAll ps s).fsm = s.fsm := by
  induction ps generalizing s with
  | nil => rfl
  | cons p ps ih => simp [commitAll, ih]
@[simp] theorem commitAll_err (ps : List Pixel) (s : State) : (commitAll ps s).err = s.err := by
  induction ps generalizing s with
  | nil => rfl
  | cons p ps ih => simp [commitAll, ih]
@[simp] theorem commitAll_target (ps : List Pixel) (s : State) : (commitAll ps s).target = s.target := by
  induction ps generalizing s with
  | nil => rfl
  | cons p ps ih => simp [commitAll, ih]
@[simp] theorem commitAll_pos (ps : List Pixel) (s : State) : (commitAll ps s).pos = s.pos := by
  induction ps generalizing s with
  | nil => rfl
  | cons p ps ih => simp [commitAll, ih]
@[simp] theorem commitAll_hdrWidth (ps : List Pixel) (s : State) : (commitAll ps s).hdrWidth = s.hdrWidth := by
  induction ps generalizing s with
  | nil => rfl
  | cons p ps ih => simp [commitAll, ih]
@[simp] theorem commitAll_hdrHeight (ps : List Pixel) (s : State) : (commitAll ps s).hdrHeight = s.hdrHeight := by
  induction ps generalizing s with
  | nil => rfl
  | cons p ps ih => simp [commitAll, ih]
@[simp] theorem commitAll_hdrChannels (ps : List Pixel) (s : State) : (commitAll ps s).hdrChannels = s.hdrChannels := by
  induction ps generalizing s with
  | nil => rfl
  | cons p ps ih => simp [commitAll, ih]
@[simp] theorem commitAll_hdrColorspace (ps : List Pixel) (s : State) : (commitAll ps s).hdrColorspace = s.hdrColorspace := by
  induction ps generalizing s with
  | nil => rfl
  | cons p ps ih => simp [commitAll, ih]
@[simp] theorem commitAll_payload (ps : List Pixel) (s : State) : (commitAll ps s).payload = s.payload := by
  induction ps generalizing s with
  | nil => rfl
  | cons p ps ih => simp [commitAll, ih]
@[simp] theorem commitAll_dutyBroken (ps : List Pixel) (s : State) : (commitAll ps s).dutyBroken = s.dutyBroken := by
  induction ps generalizing s with
  | nil => rfl
  | cons p ps ih => simp [commitAll, ih]

@[simp] theorem commitAll_out (ps : List Pixel) (s : State) : (commitAll ps s).out = s.out ++ ps := by
  induction ps generalizing s with
  | nil => simp [commitAll]
  | cons p ps ih => simp [commitAll, ih]

@[simp] theorem commitAll_prev (ps : List Pixel) (s : State) : (commitAll ps s).prev = ps.getLastD s.prev := by
  induction ps generalizing s with
  | nil => rfl
  | cons p ps ih => rw [commitAll, ih, commit_prev, List.getLastD_cons]

@[simp] theorem commitAll_count (ps : List Pixel) (s : State) :
    (commitAll ps s).count = s.count + BitVec.ofNat 64 ps.length := by
  induction ps generalizing s with
  | nil => simp [commitAll]
  | cons p ps ih =>
    rw [commitAll, ih, commit_count, BitVec.add_assoc]
    congr 1
    apply BitVec.eq_of_toNat_eq
    simp [Nat.add_comm]

@[simp] theorem commitAll_cache (ps : List Pixel) (s : State) :
    (commitAll ps s).cache = ps.foldl (fun c p => c.set (pixelHash p).toNat p (pixelHash p).isLt) s.cache := by
  induction ps generalizing s with
  | nil => rfl
  | cons p ps ih => simp [commitAll, ih]

end Sys2Proof.Machine
end

