-- ==== Sys2Proof/Laws/Ops.lean ====
section
/-! SUPPORT. One lemma per shared operation, saying everything it can do; later proofs cite these. -/

namespace Sys2Proof.Machine

/-- Everything a breach does: it leaves a mark, the first one, and the rest of the state as it was (R242). -/
theorem breach_eq (d : HostDuty) (s : State) :
    breach d s = { s with dutyBroken := some (s.dutyBroken.getD d) } := by
  obtain ⟨_, _, _, _, _, _, _, _, _, _, _, _, _, _, _ | _⟩ := s <;> rfl

/-- The slot just written reads as the pixel written (R56, R57). -/
@[simp] theorem cacheRead_cacheWrite_self (i : Slot) (p : Pixel) (s : State) :
    cacheRead i (cacheWrite i p s) = p := by
  simp [cacheRead]

/-- Every other slot reads as before (R57). -/
theorem cacheRead_cacheWrite_other {i j : Slot} (h : i ≠ j) (p : Pixel) (s : State) :
    cacheRead j (cacheWrite i p s) = cacheRead j s := by
  have : i.toNat ≠ j.toNat := fun e => h (BitVec.eq_of_toNat_eq e)
  simp [cacheRead, Vector.getElem_set_ne, this]

/-- After a commit of `p`, slot `j` holds `p` if it is `p`'s slot, and what it held otherwise (R108). -/
theorem cacheRead_commit (j : Slot) (p : Pixel) (s : State) :
    cacheRead j (commit p s) = if pixelHash p = j then p else cacheRead j s := by
  by_cases h : pixelHash p = j
  · subst h; simp [cacheRead]
  · have : (pixelHash p).toNat ≠ j.toNat := fun e => h (BitVec.eq_of_toNat_eq e)
    simp [cacheRead, Vector.getElem_set_ne, this, h]

@[simp] theorem raise_eq (e : ErrKind) (s : State) : raise e s = .next (raised e s) := rfl

/-- Everything an opcode's common end can do (R101, R107). -/
theorem produce_cases {n : Nat} {ps : List Pixel} {s t : State} (h : produce n ps s = .next t) :
    (s.target.toNat < s.count.toNat + ps.length ∧ t = raised .tooManyPixels s) ∨
    (s.count.toNat + ps.length ≤ s.target.toNat ∧ t = advance n (commitAll ps s)) := by
  unfold produce at h
  split at h
  · exact .inl ⟨‹_›, by simpa using h.symm⟩
  · exact .inr ⟨by omega, by simpa using h.symm⟩

/-- An opcode that fits commits its pixels and advances (R101). -/
theorem produce_fits {n : Nat} {ps : List Pixel} {s : State} (h : s.count.toNat + ps.length ≤ s.target.toNat) :
    produce n ps s = .next (advance n (commitAll ps s)) := if_neg (by omega)

/-- An opcode that does not fit raises TooManyPixels and commits nothing (R107). -/
theorem produce_overshoots {n : Nat} {ps : List Pixel} {s : State} (h : s.target.toNat < s.count.toNat + ps.length) :
    produce n ps s = .next (raised .tooManyPixels s) := if_pos h

/-- An opcode always answers a next state. -/
theorem produce_next (n : Nat) (ps : List Pixel) (s : State) : ∃ t, produce n ps s = .next t := by
  unfold produce
  split
  · exact ⟨_, rfl⟩
  · exact ⟨_, rfl⟩

/-- Everything the trailing policy can do (R183). -/
theorem trailing_cases {s t : State} (h : trailing s = .next t) :
    (s.config.trailing = .strict ∧ t = raised .tooManyPixels s) ∨
    (s.config.trailing = .ignoreTrailing ∧ t = finish s) := by
  unfold trailing at h
  split at h
  · exact .inl ⟨‹_›, by simpa using h.symm⟩
  · exact .inr ⟨‹_›, by simpa using h.symm⟩

end Sys2Proof.Machine
end

