-- ==== Sys2Proof/Laws/PayloadMemory.lean ====
section
/-! SUPPORT. Payload memory: every operation keeps the canonical form, and what is read after a load or a write. -/

namespace Sys2Proof.Machine

theorem cellsWf_mono {lo lo' len : Nat} (h : lo' ≤ lo) :
    ∀ {cs : List Host.Cell}, cellsWf lo len cs = true → cellsWf lo' len cs = true
  | [], _ => rfl
  | (x, b) :: cs, hw => by
    simp only [cellsWf, Bool.and_eq_true, decide_eq_true_eq] at hw ⊢
    exact ⟨⟨⟨by omega, hw.1.1.2⟩, hw.1.2⟩, hw.2⟩

theorem cellsWf_len {lo len len' : Nat} (h : len ≤ len') :
    ∀ {cs : List Host.Cell}, cellsWf lo len cs = true → cellsWf lo len' cs = true
  | [], _ => rfl
  | (x, b) :: cs, hw => by
    simp only [cellsWf, Bool.and_eq_true, decide_eq_true_eq] at hw ⊢
    exact ⟨⟨⟨hw.1.1.1, by omega⟩, hw.1.2⟩, cellsWf_len h hw.2⟩

/-- Below the first address nothing is listed. -/
theorem cellAt_below {lo len a : Nat} (h : a < lo) :
    ∀ {cs : List Host.Cell}, cellsWf lo len cs = true → cellAt a cs = 0
  | [], _ => rfl
  | (x, b) :: cs, hw => by
    simp only [cellsWf, Bool.and_eq_true, decide_eq_true_eq] at hw
    have hx : x ≠ a := by omega
    simp only [cellAt, if_neg hx]
    exact cellAt_below (by omega) hw.2

theorem cellsWf_cellsOf (a len : Nat) (bs : List Byte) (h : a + bs.length ≤ len) :
    cellsWf a len (cellsOf a bs) = true := by
  induction bs generalizing a with
  | nil => rfl
  | cons b bs ih =>
    simp only [List.length_cons] at h
    have ih' := ih (a + 1) (by omega)
    unfold cellsOf
    split
    · exact cellsWf_mono (Nat.le_succ a) ih'
    · rename_i hb
      simp only [cellsWf, Bool.and_eq_true, decide_eq_true_eq]
      exact ⟨⟨⟨Nat.le_refl a, by omega⟩, hb⟩, ih'⟩

/-- A loaded payload is in canonical form. -/
theorem Memory.ofBytes_wf (bs : List Byte) : (Memory.ofBytes bs).wf = true :=
  cellsWf_cellsOf 0 bs.length bs (by omega)

theorem setCell_wf {lo len a : Nat} (b : Byte) (ha : lo ≤ a) (hl : a < len) :
    ∀ {cs : List Host.Cell}, cellsWf lo len cs = true → cellsWf lo len (setCell a b cs) = true
  | [], _ => by
    unfold setCell
    split <;> simp_all [cellsWf]
  | (x, c) :: cs, hw => by
    simp only [cellsWf, Bool.and_eq_true, decide_eq_true_eq] at hw
    unfold setCell
    split
    · rename_i hx
      simp only [cellsWf, Bool.and_eq_true, decide_eq_true_eq]
      exact ⟨hw.1, setCell_wf b hx hl hw.2⟩
    · split
      · split
        · exact cellsWf_mono (by omega) hw.2
        · rename_i h1 h2 h3
          subst h2
          simp only [cellsWf, Bool.and_eq_true, decide_eq_true_eq]
          exact ⟨⟨⟨ha, hl⟩, h3⟩, hw.2⟩
      · split
        · simp only [cellsWf, Bool.and_eq_true, decide_eq_true_eq]
          exact hw
        · rename_i h1 h2 h3
          simp only [cellsWf, Bool.and_eq_true, decide_eq_true_eq]
          exact ⟨⟨⟨ha, hl⟩, h3⟩, ⟨⟨⟨by omega, hw.1.1.2⟩, hw.1.2⟩, hw.2⟩⟩

/-- A write keeps the canonical form. -/
theorem Memory.write_wf (m : Memory) (a : Nat) (b : Byte) (h : m.wf = true) : (m.write a b).wf = true := by
  unfold Memory.write
  split
  · exact setCell_wf b (Nat.zero_le a) ‹_› h
  · exact h

/-- Placing bytes keeps the canonical form. -/
theorem Memory.place_wf (m : Memory) (a : Nat) (bs : List Byte) (h : m.wf = true) : (m.place a bs).wf = true := by
  induction bs generalizing m a with
  | nil => exact h
  | cons b bs ih =>
    refine ih _ _ (Memory.write_wf _ _ _ ?_)
    exact cellsWf_len (Nat.le_max_left m.len (a + 1)) h

theorem cellAt_setCell (a a' : Nat) (b : Byte) {lo len : Nat} :
    ∀ {cs : List Host.Cell}, cellsWf lo len cs = true →
      cellAt a' (setCell a b cs) = if a' = a then b else cellAt a' cs
  | [], _ => by
    unfold setCell
    split
    · simp_all [cellAt]
    · simp only [cellAt, eq_comm]
  | (x, c) :: cs, hw => by
    simp only [cellsWf, Bool.and_eq_true, decide_eq_true_eq] at hw
    unfold setCell
    split
    · rename_i hx
      simp only [cellAt, cellAt_setCell a a' b hw.2]
      by_cases h : x = a'
      · have : a' ≠ a := by omega
        simp [h, this]
      · simp [h]
    · split
      · rename_i hxa
        subst hxa
        by_cases h : a' = x
        · subst h
          split
          · rename_i hb
            rw [if_pos rfl, cellAt_below (Nat.lt_succ_self a') hw.2, hb]
          · simp [cellAt]
        · have h' : ¬ x = a' := fun e => h e.symm
          split <;> simp [cellAt, h']
      · have hax : ¬ x = a := by assumption
        split
        · rename_i hb
          by_cases h : a' = a
          · have h' : ¬ x = a := hax
            rw [h, if_pos rfl, hb]
            simp only [cellAt, if_neg h']
            exact cellAt_below (by omega) hw.2
          · simp [h]
        · by_cases h : a' = a
          · simp [cellAt, h]
          · have h' : ¬ a = a' := fun e => h e.symm
            simp [cellAt, h, h']

/-- Reading after a write: the byte written there, every other byte as before. -/
theorem Memory.readByte_write (m : Memory) (a a' : Nat) (b : Byte) (h : m.wf = true) :
    (m.write a b).readByte a' = if a' = a ∧ a < m.len then some b else m.readByte a' := by
  unfold Memory.write Memory.readByte
  by_cases hl : a < m.len
  · simp only [hl, if_true, and_true, cellAt_setCell a a' b h]
    by_cases e : a' = a <;> simp [e, hl]
  · simp [hl]

theorem cellAt_cellsOf (a a' : Nat) (bs : List Byte) :
    cellAt a' (cellsOf a bs) = if a ≤ a' then bs.getD (a' - a) 0 else 0 := by
  induction bs generalizing a with
  | nil => simp [cellsOf, cellAt]
  | cons b bs ih =>
    unfold cellsOf
    by_cases hb : b = 0
    · simp only [hb, if_true, ih]
      by_cases h : a = a'
      · subst h
        rw [if_neg (Nat.not_succ_le_self a)]; simp
      · by_cases h2 : a ≤ a'
        · have : a' - a = (a' - (a + 1)) + 1 := by omega
          have h3 : a + 1 ≤ a' := by omega
          simp [h2, h3, this]
        · have h3 : ¬ a + 1 ≤ a' := by omega
          simp [h2, h3]
    · simp only [hb, if_false, cellAt, ih]
      by_cases h : a = a'
      · subst h
        simp
      · by_cases h2 : a ≤ a'
        · have : a' - a = (a' - (a + 1)) + 1 := by omega
          have h3 : a + 1 ≤ a' := by omega
          simp [h, h2, h3, this]
        · have h3 : ¬ a + 1 ≤ a' := by omega
          simp [h, h2, h3]

/-- Where `MemRead(a, n)` is defined (R51). -/
theorem Memory.readRange_isSome (m : Memory) (a n : Nat) : (m.readRange a n).isSome = decide (a + n ≤ m.len) := by
  unfold Memory.readRange
  split <;> simp [*]

/-- `MemRead` gives as many bytes as asked for. -/
theorem Memory.readRange_length {m : Memory} {a n : Nat} {bs : List Byte} (h : m.readRange a n = some bs) :
    bs.length = n := by
  unfold Memory.readRange at h
  split at h
  · simpa using (congrArg List.length (Option.some.inj h)).symm
  · simp at h

/-- A longer read starts with the bytes of a shorter one. -/
theorem Memory.readRange_take {m : Memory} {a n k : Nat} {bs : List Byte} (h : m.readRange a n = some bs)
    (hk : k ≤ n) : m.readRange a k = some (bs.take k) := by
  unfold Memory.readRange at h ⊢
  split at h
  · rw [if_pos (by omega), ← Option.some.inj h, ← List.map_take, List.take_range, Nat.min_eq_left hk]
  · simp at h

/-- The first byte of a read is the byte at its address. -/
theorem Memory.readByte_of_readRange {m : Memory} {a n : Nat} {b : Byte} {bs : List Byte}
    (h : m.readRange a n = some (b :: bs)) : m.readByte a = some b := by
  have hn := Memory.readRange_length h
  simp only [List.length_cons] at hn
  unfold Memory.readRange at h
  unfold Memory.readByte
  split at h
  · rw [if_pos (by omega)]
    have h0 := congrArg (·[0]?) (Option.some.inj h)
    have : 0 < n := by omega
    simpa [this] using h0
  · simp at h

end Sys2Proof.Machine
end

