-- ==== Sys2Proof/Laws/PerInstr.lean ====
section
/-! SUPPORT. Families of facts about every instruction, one lemma per constructor. -/

namespace Sys2Proof.Laws

/-- An instruction's bytes are as many as its length says, and its first byte alone gives that length to the priority
decode (R80, R92); the END marker's 8 bytes start with an INDEX tag (R184). -/
def EncodedLength.Statement (i : Instr) : Prop :=
  (encode i).length = i.length ∧
    ((i.wellFormed = true ∧ i ≠ .endMarker) → ((encode i).head?.map tagLength) = some i.length)

theorem EncodedLength.rgb (r g b : Byte) : EncodedLength.Statement (.rgb r g b) := ⟨rfl, fun _ => rfl⟩

theorem EncodedLength.rgba (r g b a : Byte) : EncodedLength.Statement (.rgba r g b a) := ⟨rfl, fun _ => rfl⟩

/-- A tag with top bits `00` is one byte long. -/
theorem tagLength_index : ∀ i : Slot, tagLength (0b00#2 ++ i) = 1 := by decide

/-- A tag with top bits `01` is one byte long. -/
theorem tagLength_diff : ∀ x y z : BitVec 2, tagLength (0b01#2 ++ x ++ y ++ z) = 1 := by decide

/-- A tag with top bits `10` is two bytes long. -/
theorem tagLength_luma : ∀ x : BitVec 6, tagLength (0b10#2 ++ x) = 2 := by decide

/-- A tag with top bits `11` and a field of at most 61 is one byte long. -/
theorem tagLength_run : ∀ x : BitVec 6, x.toNat ≤ 61 → tagLength (0b11#2 ++ x) = 1 := by decide

theorem EncodedLength.index (idx : Slot) : EncodedLength.Statement (.index idx) :=
  ⟨rfl, fun _ => congrArg some (tagLength_index idx)⟩

theorem EncodedLength.diff (dr dg db : Int) : EncodedLength.Statement (.diff dr dg db) :=
  ⟨rfl, fun _ => congrArg some (tagLength_diff _ _ _)⟩

theorem EncodedLength.luma (dg drg dbg : Int) : EncodedLength.Statement (.luma dg drg dbg) :=
  ⟨rfl, fun _ => congrArg some (tagLength_luma _)⟩

theorem EncodedLength.run (k : Nat) : EncodedLength.Statement (.run k) := by
  refine ⟨rfl, fun h => congrArg some (tagLength_run _ ?_)⟩
  have hk := h.1
  simp only [Instr.wellFormed, Bool.and_eq_true, decide_eq_true_eq] at hk
  simp only [BitVec.toNat_ofNat]
  omega

theorem EncodedLength.endMarker : EncodedLength.Statement .endMarker := ⟨rfl, fun h => absurd rfl h.2⟩

end Sys2Proof.Laws
end

