-- ==== Sys2Proof/Laws/Step.lean ====
section
/-! SUPPORT. What `exec` and `step` can answer, said once. -/

namespace Sys2Proof.Machine

/-- Every opcode ends in the common way, with the pixels of R106. -/
theorem exec_opcode {i : Instr} (h : i ≠ .endMarker) (s : State) :
    exec i s = produce i.length (pixelsOf i s.prev s.cache) s := by
  cases i <;> first | rfl | exact absurd rfl h

/-- Every well-formed opcode produces 1 to 62 pixels (R101, R106). -/
theorem pixelsOf_length {i : Instr} (h : i ≠ .endMarker) (hw : i.wellFormed = true) (p : Pixel) (c : Cache) :
    1 ≤ (pixelsOf i p c).length ∧ (pixelsOf i p c).length ≤ 62 := by
  cases i <;> simp_all [pixelsOf, Instr.wellFormed]

/-- END at the target (R181). -/
theorem exec_endMarker_atTarget {s : State} (h : s.count = s.target) :
    exec .endMarker s = .next (finish (advance 8 s)) := if_pos h

/-- Where a fetch succeeds: the opcode's bytes are all there, and it is not the END marker. -/
theorem fetch_ok {s : State} {i : Instr} (h : fetch s = .ok i) :
    ∃ t bs, s.payload.readByte s.pos = some t ∧ s.payload.readRange s.pos (tagLength t) = some bs ∧
      decodeOpcode bs = .ok i ∧ i.length = tagLength t ∧ i ≠ .endMarker ∧ s.pos + i.length ≤ s.payload.len := by
  unfold fetch at h
  split at h
  · cases h
  · rename_i t ht
    split at h
    · cases h
    · rename_i bs hbs
      obtain ⟨t', rest, rfl, hlen, -, hne⟩ := decodeOpcode_ok h
      have ht' := Memory.readByte_of_readRange hbs
      have : t' = t := Option.some.inj (ht'.symm.trans ht)
      subst this
      have hsome := Memory.readRange_isSome s.payload s.pos (tagLength t')
      rw [hbs] at hsome
      exact ⟨t', _, ht, hbs, h, hlen, hne, by rw [hlen]; simpa using hsome.symm⟩

/-- A running decode steps by `busyStep`. -/
theorem step_of_running {s : State} (h : s.running) : step s = busyStep s := by
  unfold step
  rw [h.2, h.1]

/-- The completion branch of a running decode's step (R102). -/
theorem step_at_target {s : State} (h : s.running) (hc : s.count = s.target) : step s = complete s :=
  (step_of_running h).trans (if_pos hc)

/-- The opcode branch of a running decode's step (R101). -/
theorem step_before_target {s : State} (h : s.running) (hc : s.count ≠ s.target) : step s = decodeStep s :=
  (step_of_running h).trans (if_neg hc)

/-- Everything a step can do (R101): commit an opcode's pixels, raise one of the two errors, or end the decode. -/
theorem step_cases {s t : State} (h : step s = .next t) :
    s.running ∧
    ((s.count ≠ s.target ∧ ∃ i, fetch s = .ok i ∧
        s.count.toNat + (pixelsOf i s.prev s.cache).length ≤ s.target.toNat ∧
        t = advance i.length (commitAll (pixelsOf i s.prev s.cache) s)) ∨
     (s.count ≠ s.target ∧ t = raised .tooFewPixels s) ∨
     t = raised .tooManyPixels s ∨
     (s.count = s.target ∧ t = finish s) ∨
     (s.count = s.target ∧ t = finish (advance 8 s))) := by
  unfold step at h
  split at h
  · cases h
  · rename_i hd
    split at h
    · rename_i hf
      refine ⟨⟨hf, hd⟩, ?_⟩
      unfold busyStep at h
      split at h
      · rename_i hc
        unfold complete at h
        split at h
        · exact .inr (.inr (.inr (.inl ⟨hc, by simpa using h.symm⟩)))
        · split at h
          · rename_i i hi
            have : i = .endMarker := by
              unfold fetchMarker at hi
              split at hi
              · cases hi
              · exact (decodeMarker_ok hi).1
            subst this
            rw [exec_endMarker_atTarget hc] at h
            exact .inr (.inr (.inr (.inr ⟨hc, by simpa using h.symm⟩)))
          · obtain ⟨-, rfl⟩ | ⟨-, rfl⟩ := trailing_cases h
            · exact .inr (.inr (.inl rfl))
            · exact .inr (.inr (.inr (.inl ⟨hc, rfl⟩)))
      · rename_i hc
        unfold decodeStep at h
        split at h
        · rename_i i hi
          obtain ⟨-, -, -, -, -, -, hne, -⟩ := fetch_ok hi
          rw [exec_opcode hne] at h
          obtain ⟨-, rfl⟩ | ⟨hle, rfl⟩ := produce_cases h
          · exact .inr (.inr (.inl rfl))
          · exact .inl ⟨hc, i, hi, hle, rfl⟩
        all_goals exact .inr (.inl ⟨hc, by simpa using h.symm⟩)
    all_goals cases h

end Sys2Proof.Machine
end

