-- ==== Sys2Proof/Tests/Slice0.lean ====
section
/-! SUPPORT. Tests of the model. Every expected value is the spec's: the encodings of spec/30_encoding.md, the vectors of
spec/95_test_vectors.md (named by their ids), or the examples of the rules cited. The witnesses at the end show, for each
statement with hypotheses, a concrete state and operands that meet them together, clause by clause. -/

namespace Sys2Proof.Tests

open Sys2Proof Sys2Proof.Machine

/-- A block right after `start` of a `w` x `h` RGB image on the payload `bs`. -/
def atStart (w h : Dim) (bs : List Byte) : State :=
  start { width := w, height := h, channels := .rgb, colorspace := .srgb }
    { State.reset with payload := Memory.ofBytes bs }

/-- The same block under `IgnoreTrailing`. -/
def lenient (s : State) : State := { s with config := { s.config with trailing := .ignoreTrailing } }

/-- A check of the next state. -/
def nextHas (r : Result) (f : State → Bool) : Bool :=
  match r with
  | .next s => f s
  | .fault _ => false
  | .refused _ => false

/-! ### Well-formedness: one ill-formed term for each check -/

theorem test_wellFormed_refuses_diff :
    (Instr.diff (-3) 0 0).wellFormed = false ∧ (Instr.diff 2 0 0).wellFormed = false ∧
    (Instr.diff 0 (-3) 0).wellFormed = false ∧ (Instr.diff 0 2 0).wellFormed = false ∧
    (Instr.diff 0 0 (-3)).wellFormed = false ∧ (Instr.diff 0 0 2).wellFormed = false := by decide

theorem test_wellFormed_refuses_luma :
    (Instr.luma (-33) 0 0).wellFormed = false ∧ (Instr.luma 32 0 0).wellFormed = false ∧
    (Instr.luma 0 (-9) 0).wellFormed = false ∧ (Instr.luma 0 8 0).wellFormed = false ∧
    (Instr.luma 0 0 (-9)).wellFormed = false ∧ (Instr.luma 0 0 8).wellFormed = false := by decide

theorem test_wellFormed_refuses_run :
    (Instr.run 0).wellFormed = false ∧ (Instr.run 63).wellFormed = false := by decide

/-! ### Decoding: words written out bit by bit from R82 to R88 -/

theorem test_decode_rgb :
    (decodeOpcode [0b11111110, 0b00001010, 0b00010100, 0b00011110]).toOption = some (.rgb 10 20 30) := by decide

theorem test_decode_rgba :
    (decodeOpcode [0b11111111, 0b00001010, 0b00010100, 0b00011110, 0b10000000]).toOption =
      some (.rgba 10 20 30 128) := by decide

theorem test_decode_index : (decodeOpcode [0b00110101]).toOption = some (.index 53) := by decide

/-- §8 scenario 5 (R85). -/
theorem test_decode_diff : (decodeOpcode [0b01000111]).toOption = some (.diff (-2) (-1) 1) := by decide

/-- R151's example. -/
theorem test_decode_luma : (decodeOpcode [0b10100011, 0b10000101]).toOption = some (.luma 3 0 (-3)) := by decide

theorem test_decode_run : (decodeOpcode [0b11000000]).toOption = some (.run 1) := by decide

/-- 0xFD is the longest RUN; 0xFE and 0xFF are not RUN (R87). -/
theorem test_decode_run_longest : (decodeOpcode [0b11111101]).toOption = some (.run 62) := by decide

theorem test_decode_end :
    (decodeMarker [0b00000000, 0b00000000, 0b00000000, 0b00000000, 0b00000000, 0b00000000, 0b00000000,
      0b00000001]).toOption = some .endMarker := by decide

/-- The marker's bytes before the target are INDEX 0 (R184). -/
theorem test_decode_early_marker : (decodeOpcode endMarkerBytes).toOption = some (.index 0) := by decide

/-- Vectors L4, L5, U6: truncated opcodes give no instruction. -/
theorem test_decode_truncated :
    (decodeOpcode [0xFE, 0x01, 0x02]).toOption = none ∧ (decodeOpcode [0xFF, 0x01, 0x02, 0x03]).toOption = none ∧
    (decodeOpcode [0xA0]).toOption = none := by decide

/-- Table words: bit 0 is the least significant bit of the first byte. -/
theorem test_tableWord :
    decodeTableWord 32 0x1E140AFE = some (.rgb 10 20 30) ∧ decodeTableWord 8 0xFF = some (.rgba 0 0 0 0) ∧
    decodeTableWord 16 0x85A3 = some (.luma 3 0 (-3)) ∧ decodeTableWord 64 0x0100000000000000 = some .endMarker := by
  decide

/-- The bytes and the syntax of program P1. -/
theorem test_assemble_P1 :
    assemble [.instr (.rgba 10 20 30 128), .instr (.diff 1 1 1), .instr (.luma 3 0 (-3)), .instr (.index 20),
      .instr .endMarker] =
      some [0xFF, 0x0A, 0x14, 0x1E, 0x80, 0x7F, 0xA3, 0x85, 0x14, 0, 0, 0, 0, 0, 0, 0, 1] := by decide

/-! ### Operands -/

/-- The hash table of 95_test_vectors.md section 2.1. -/
theorem test_hash :
    pixelHash ⟨0, 0, 0, 0⟩ = 0 ∧ pixelHash ⟨0, 0, 0, 255⟩ = 53 ∧ pixelHash ⟨1, 0, 0, 0⟩ = 3 ∧
    pixelHash ⟨0, 1, 0, 0⟩ = 5 ∧ pixelHash ⟨0, 0, 1, 0⟩ = 7 ∧ pixelHash ⟨0, 0, 0, 1⟩ = 11 ∧
    pixelHash ⟨0, 0, 0, 64⟩ = 0 ∧ pixelHash ⟨127, 127, 127, 255⟩ = 38 ∧ pixelHash ⟨255, 255, 255, 255⟩ = 38 ∧
    pixelHash ⟨10, 20, 30, 128⟩ = 20 ∧ pixelHash ⟨254, 254, 254, 255⟩ = 23 ∧ pixelHash ⟨1, 2, 3, 4⟩ = 14 := by decide

/-- Both ends of the wrap: 254 + 3 is 1 (§8), 0 - 2 is 254 (R150). -/
theorem test_add8 : add8 254 3 = 1 ∧ add8 0 (-2) = 254 ∧ add8 0 (-40) = 216 ∧ add8 255 1 = 0 := by decide

/-- R60. -/
theorem test_word_view : Pixel.toWord ⟨1, 2, 3, 4⟩ = 0x01020304 ∧ Pixel.ofWord 0x01020304 = ⟨1, 2, 3, 4⟩ := by decide

/-! ### Steps -/

/-- Vector L1, and its slot. -/
theorem test_rgb : nextHas (step (atStart 1 1 [0xFE, 0x0A, 0x14, 0x1E])) (fun t =>
    t.out == [⟨10, 20, 30, 255⟩] && cacheRead 9 t == ⟨10, 20, 30, 255⟩ && t.pos == 4 && t.count == 1) = true := by
  decide

/-- R130: alpha 4 is carried over, into slot 10. -/
theorem test_rgb_carries_alpha :
    nextHas (exec (.rgb 5 6 7) { atStart 2 1 [] with prev := ⟨1, 2, 3, 4⟩ }) (fun t =>
      t.prev == ⟨5, 6, 7, 4⟩ && cacheRead 10 t == ⟨5, 6, 7, 4⟩) = true := by decide

/-- R131's example. -/
theorem test_rgba : nextHas (step (atStart 1 1 [0xFF, 0x0A, 0x14, 0x1E, 0x80])) (fun t =>
    t.prev == ⟨10, 20, 30, 128⟩ && cacheRead 20 t == ⟨10, 20, 30, 128⟩ && t.pos == 5) = true := by decide

/-- Vector I1: not the initial `prev`. -/
theorem test_index : nextHas (step (atStart 1 1 [0x35])) (fun t =>
    t.out == [⟨0, 0, 0, 0⟩] && t.prev == ⟨0, 0, 0, 0⟩ && t.pos == 1) = true := by decide

/-- Vector I5, second step: an unwritten slot's zero pixel overwrites slot 0. -/
theorem test_index_overwrites_slot_0 :
    nextHas (exec (.index 5) (commit ⟨0, 0, 0, 64⟩ (atStart 3 1 []))) (fun t =>
      t.prev == ⟨0, 0, 0, 0⟩ && cacheRead 0 t == ⟨0, 0, 0, 0⟩) = true := by decide

/-- Vector D4, in slot 34. -/
theorem test_diff : nextHas (exec (.diff (-2) (-1) 1) { atStart 2 1 [] with prev := ⟨127, 127, 127, 255⟩ }) (fun t =>
    t.prev == ⟨125, 126, 128, 255⟩ && cacheRead 34 t == ⟨125, 126, 128, 255⟩) = true := by decide

/-- Vector D7: a different delta in each lane. -/
theorem test_diff_lanes : nextHas (step (atStart 1 1 [0x5B])) (fun t =>
    t.prev == ⟨255, 0, 1, 255⟩ && cacheRead 57 t == ⟨255, 0, 1, 255⟩) = true := by decide

/-- Vector U2. -/
theorem test_luma : nextHas (step (atStart 1 1 [0x80, 0x00])) (fun t =>
    t.prev == ⟨216, 224, 216, 255⟩ && cacheRead 5 t == ⟨216, 224, 216, 255⟩ && t.pos == 2) = true := by decide

/-- Vector U5: alpha kept. -/
theorem test_luma_keeps_alpha :
    nextHas (exec (.luma 3 0 (-3)) { atStart 2 1 [] with prev := ⟨11, 21, 31, 128⟩ }) (fun t =>
      t.prev == ⟨14, 24, 31, 128⟩ && cacheRead 59 t == ⟨14, 24, 31, 128⟩) = true := by decide

/-- Program P2, step 1: RUN 2 writes slot 53. -/
theorem test_run : nextHas (step (atStart 4 1 [0xC1])) (fun t =>
    t.out == [⟨0, 0, 0, 255⟩, ⟨0, 0, 0, 255⟩] && t.count == 2 && cacheRead 53 t == ⟨0, 0, 0, 255⟩) = true := by decide

/-- Vector N3: 62 pixels for 61 is TooManyPixels, with nothing committed. -/
theorem test_run_overshoot : nextHas (step (atStart 61 1 [0xFD])) (fun t =>
    t.fsm == .error && t.err.code == 7 && t.count == 0 && t.pos == 0 && t.out == []) = true := by decide

/-- Vector E4: the marker ends an image of no pixels. -/
theorem test_end : nextHas (step (atStart 0 5 [0, 0, 0, 0, 0, 0, 0, 1])) (fun t =>
    t.fsm == .done && t.pos == 8 && t.out == []) = true := by decide

/-- Vector E7, first step: before the target the marker is INDEX 0. -/
theorem test_end_early : nextHas (step (atStart 8 1 [0, 0, 0, 0, 0, 0, 0, 1])) (fun t =>
    t.fsm == .busy && t.pos == 1 && t.out == [⟨0, 0, 0, 0⟩]) = true := by decide

/-- Vector E5 under both policies. -/
theorem test_trailing :
    nextHas (step (atStart 0 5 [0xC0])) (fun t => t.fsm == .error && t.err == .tooManyPixels && t.pos == 0) = true ∧
    nextHas (step (lenient (atStart 0 5 [0xC0]))) (fun t => t.fsm == .done && t.pos == 0) = true := by decide

/-- Vectors X1 and L4. -/
theorem test_tooFewPixels :
    nextHas (step (atStart 1 1 [])) (fun t => t.fsm == .error && t.err.code == 6) = true ∧
    nextHas (step (atStart 1 1 [0xFE, 1, 2])) (fun t => t.err.code == 6 && t.pos == 0 && t.count == 0) = true := by
  decide

/-! ### Boundary and host -/

/-- §8 scenario 1 and vectors H2, H6, H7, H8. -/
theorem test_header :
    (parseHeader [0x71, 0x6F, 0x69, 0x66, 0, 0, 0, 0x2A, 0, 0, 0, 0x45, 3, 0]).toOption =
      some { width := 42, height := 69, channels := .rgb, colorspace := .srgb } := by decide

/-- The kind of a header error. -/
def headerKind (h : List Byte) : ErrKind :=
  match parseHeader h with
  | .ok _ => .none
  | .error e => e

theorem test_header_errors :
    headerKind [0x71, 0x6F, 0x69, 0x78] = .invalidMagic ∧ headerKind [0x71, 0x6F, 0x69] = .tooShortHeader ∧
    headerKind [0x71, 0x6F, 0x69, 0x66, 0, 0, 0, 1, 0, 0, 0, 1, 5] = .invalidChannels ∧
    headerKind [0x71, 0x6F, 0x69, 0x66, 0, 0, 0, 1, 0, 0, 0, 1, 3] = .tooShortHeader ∧
    headerKind [0x71, 0x6F, 0x69, 0x66, 0, 0, 0, 1, 0, 0, 0, 1, 4, 2] = .invalidColorspace ∧
    headerKind [0x71, 0x6F, 0x69, 0x66, 0, 0, 0, 1, 0, 0, 0, 1, 0, 9] = .invalidChannels := by decide

/-- Vector H9: the largest target. -/
theorem test_target : pixelTarget 0xFFFFFFFF 0xFFFFFFFF = 0xFFFFFFFE00000001 := by decide

/-- Vector L2's packed buffer, for an RGB header. -/
theorem test_pack : pack [⟨1, 2, 3, 4⟩, ⟨5, 6, 7, 4⟩] .rgb = [1, 2, 3, 5, 6, 7] ∧
    pack [⟨1, 2, 3, 4⟩] .rgba = [1, 2, 3, 4] := by decide

/-- A `start` while BUSY is refused from the next step on (R243). -/
theorem test_start_while_busy :
    nextHas (hostAct (.start ⟨1, 1, .rgb, .srgb⟩) (atStart 1 1 [0xC0])) (fun t =>
      t.dutyBroken == some .startWhileBusy && t.fsm == .busy) = true := by decide

/-- The fetch word runs as the first instruction after reset, for the shortest and the longest instruction. -/
theorem test_withFetchWord :
    nextHas (step (State.reset.withFetchWord 8 0xC0)) (fun t => t.out == [⟨0, 0, 0, 255⟩] && t.pos == 1) = true ∧
    nextHas (step (State.reset.withFetchWord 64 0x0100000000000000)) (fun t => t.fsm == .done && t.pos == 8) = true := by
  decide

/-! ### Witnesses -/

theorem witness_EveryTagByteSelectsOneOpcode :
    ((0x00 : Byte).toNat ≤ 0x3F ∧ (0x3F : Byte).toNat ≤ 0x3F) ∧
    (0x40 ≤ (0x40 : Byte).toNat ∧ (0x7F : Byte).toNat ≤ 0x7F) ∧
    (0x80 ≤ (0x80 : Byte).toNat ∧ (0xBF : Byte).toNat ≤ 0xBF) ∧
    (0xC0 ≤ (0xC0 : Byte).toNat ∧ (0xFD : Byte).toNat ≤ 0xFD) ∧
    (0xFE : Byte).toNat = 0xFE ∧ (0xFF : Byte).toNat = 0xFF ∧
    nextHas (step (atStart 1 1 [0x00])) (fun _ => true) = true ∧ (atStart 1 1 [0x00]).err ≠ .invalidPixel := by decide

theorem witness_TagByteAloneGivesTheLength :
    (decodeOpcode (0xBF :: [0xFF])).toOption = some (.luma 31 7 7) ∧
    decodeOpcode (0xFE :: [1, 2]) = .error .truncated := ⟨by decide, rfl⟩

theorem witness_DecodingAnEncodedInstructionGivesItBack :
    (Instr.rgb 0 255 0).wellFormed = true ∧ (Instr.rgba 0 255 0 255).wellFormed = true ∧
    (Instr.index 63).wellFormed = true ∧ (Instr.diff (-2) 1 (-2)).wellFormed = true ∧
    (Instr.luma (-32) 7 (-8)).wellFormed = true ∧ (Instr.luma 31 (-8) 7).wellFormed = true ∧
    (Instr.run 1).wellFormed = true ∧ (Instr.run 62).wellFormed = true ∧ Instr.endMarker.wellFormed = true := by decide

theorem witness_EncodingADecodedInstructionGivesItsBytes :
    (decodeOpcode [0xFD, 0x00]).toOption = some (.run 62) ∧
    (decodeMarker [0, 0, 0, 0, 0, 0, 0, 1, 0xFF]).toOption = some .endMarker := by decide

theorem witness_AssemblerRefusesOperandsOutOfRange :
    assembleLine (.instr (.run 62)) = some [0xFD] ∧ assemble [.bytes [0x80]] = some [0x80] ∧
    assembleLine (.instr (.run 63)) = none ∧ assemble [.instr (.diff 0 0 2)] = none := by decide

theorem witness_HashIsTheSameAtEveryAccumulatorWidth : (6 : Nat) ≤ 6 := by decide

/-- One pixel below the target: the boundary of every hypothesis `count < target`. -/
theorem witness_DeltaLanesWrapModulo256 :
    (atStart 1 1 []).count.toNat < (atStart 1 1 []).target.toNat := by decide

theorem witness_CommitWritesPrevOneSlotOutputAndCount : (52 : Slot) ≠ pixelHash Pixel.init := by decide

theorem witness_EqualPayloadsAreEqualData :
    (Memory.ofBytes [0, 7, 0]).wf = true ∧ ((Memory.ofBytes [0, 9, 0]).write 1 7).wf = true ∧
    (Memory.ofBytes [0, 7, 0]).len = ((Memory.ofBytes [0, 9, 0]).write 1 7).len ∧
    Memory.ofBytes [0, 7, 0] = (Memory.ofBytes [0, 9, 0]).write 1 7 := by decide

theorem witness_EveryOpcodeCommitsItsPixelsOrOvershoots :
    Instr.diff 1 1 1 ≠ .endMarker ∧ (Instr.diff 1 1 1).wellFormed = true ∧
    (atStart 1 1 []).count.toNat < (atStart 1 1 []).target.toNat ∧ ∀ k, Instr.diff 1 1 1 ≠ .run k :=
  ⟨by decide, by decide, by decide, fun _ => by simp⟩

theorem running_atStart (w h : Dim) (bs : List Byte) : (atStart w h bs).running := ⟨rfl, rfl⟩

theorem witness_RgbCommitsLiteralColourAndCarriedAlpha :
    ((atStart 1 1 [0xFE, 1, 2, 3]).running ∧
      (atStart 1 1 [0xFE, 1, 2, 3]).count.toNat < (atStart 1 1 [0xFE, 1, 2, 3]).target.toNat ∧
      (atStart 1 1 [0xFE, 1, 2, 3]).payload.readRange 0 4 = some [0xFE, 1, 2, 3]) ∧
    ((atStart 1 1 [0xFE, 1, 2]).running ∧
      (atStart 1 1 [0xFE, 1, 2]).count.toNat < (atStart 1 1 [0xFE, 1, 2]).target.toNat ∧
      (atStart 1 1 [0xFE, 1, 2]).payload.readByte 0 = some 0xFE ∧ (atStart 1 1 [0xFE, 1, 2]).payload.len < 0 + 4) ∧
    ((atStart 0 1 [0xFE]).running ∧ (atStart 0 1 [0xFE]).count = (atStart 0 1 [0xFE]).target ∧
      (atStart 0 1 [0xFE]).config.trailing = .strict ∧ (atStart 0 1 [0xFE]).payload.readByte 0 = some 0xFE) :=
  ⟨⟨⟨rfl, rfl⟩, by decide, by decide⟩, ⟨⟨rfl, rfl⟩, by decide, by decide, by decide⟩,
    ⟨⟨rfl, rfl⟩, by decide, by decide, by decide⟩⟩

theorem witness_RgbaCommitsFourLiteralChannels :
    ((atStart 1 1 [0xFF, 1, 2, 3, 4]).running ∧
      (atStart 1 1 [0xFF, 1, 2, 3, 4]).count.toNat < (atStart 1 1 [0xFF, 1, 2, 3, 4]).target.toNat ∧
      (atStart 1 1 [0xFF, 1, 2, 3, 4]).payload.readRange 0 5 = some [0xFF, 1, 2, 3, 4]) ∧
    ((atStart 1 1 [0xFF, 1, 2, 3]).running ∧
      (atStart 1 1 [0xFF, 1, 2, 3]).count.toNat < (atStart 1 1 [0xFF, 1, 2, 3]).target.toNat ∧
      (atStart 1 1 [0xFF, 1, 2, 3]).payload.readByte 0 = some 0xFF ∧
      (atStart 1 1 [0xFF, 1, 2, 3]).payload.len < 0 + 5) ∧
    ((atStart 0 1 [0xFF]).running ∧ (atStart 0 1 [0xFF]).count = (atStart 0 1 [0xFF]).target ∧
      (atStart 0 1 [0xFF]).config.trailing = .strict ∧ (atStart 0 1 [0xFF]).payload.readByte 0 = some 0xFF) :=
  ⟨⟨⟨rfl, rfl⟩, by decide, by decide⟩, ⟨⟨rfl, rfl⟩, by decide, by decide, by decide⟩,
    ⟨⟨rfl, rfl⟩, by decide, by decide, by decide⟩⟩

/-- A running block with one pixel to go, and one at its target under `Strict`, whose next byte is `b`. -/
theorem one_byte_witness (b : Byte) :
    (atStart 1 1 [b]).running ∧ (atStart 1 1 [b]).payload.readByte (atStart 1 1 [b]).pos = some b ∧
    (atStart 1 1 [b]).count.toNat < (atStart 1 1 [b]).target.toNat ∧
    (atStart 0 1 [b]).running ∧ (atStart 0 1 [b]).payload.readByte (atStart 0 1 [b]).pos = some b ∧
    (atStart 0 1 [b]).count = (atStart 0 1 [b]).target ∧ (atStart 0 1 [b]).config.trailing = .strict := by
  have h : (Memory.ofBytes [b]).readByte 0 = some b := by
    simp [Memory.readByte, Memory.ofBytes, cellAt_cellsOf]
  exact ⟨⟨rfl, rfl⟩, h, (by decide : (0 : Count).toNat < (pixelTarget 1 1).toNat), ⟨rfl, rfl⟩, h,
    (by decide : (0 : Count) = pixelTarget 0 1), rfl⟩

/-- Both ends of the tag range, with the block of `one_byte_witness`, where no marker starts. -/
theorem witness_IndexCommitsTheSlotContent :
    (0x00 : Byte).toNat ≤ 0x3F ∧ (0x3F : Byte).toNat ≤ 0x3F ∧
    (atStart 0 1 [0x00]).payload.readRange 0 8 ≠ some [0, 0, 0, 0, 0, 0, 0, 1] := by decide

theorem witness_DiffAddsSmallDeltas :
    0x40 ≤ (0x40 : Byte).toNat ∧ (0x40 : Byte).toNat ≤ 0x7F ∧ 0x40 ≤ (0x7F : Byte).toNat ∧ (0x7F : Byte).toNat ≤ 0x7F ∧
    (atStart 1 1 [0x40]).payload.readByte 0 = some 0x40 ∧ (atStart 0 1 [0x7F]).payload.readByte 0 = some 0x7F := by decide

theorem witness_LumaAddsGreenRelativeDeltas :
    0x80 ≤ (0x80 : Byte).toNat ∧ (0x80 : Byte).toNat ≤ 0xBF ∧ 0x80 ≤ (0xBF : Byte).toNat ∧ (0xBF : Byte).toNat ≤ 0xBF ∧
    (atStart 1 1 [0x80, 0xFF]).payload.readByte 0 = some 0x80 ∧
    (atStart 1 1 [0x80, 0xFF]).count.toNat < (atStart 1 1 [0x80, 0xFF]).target.toNat ∧
    (atStart 1 1 [0x80, 0xFF]).payload.readRange 0 2 = some [0x80, 0xFF] ∧
    (atStart 1 1 [0xBF]).payload.readByte 0 = some 0xBF ∧ (atStart 1 1 [0xBF]).payload.len < 0 + 2 := by decide

/-- A RUN that exactly fills, one that overshoots by one, and both ends of the tag range. -/
theorem witness_RunRepeatsThePreviousPixel :
    0xC0 ≤ (0xC0 : Byte).toNat ∧ (0xC0 : Byte).toNat ≤ 0xFD ∧ 0xC0 ≤ (0xFD : Byte).toNat ∧ (0xFD : Byte).toNat ≤ 0xFD ∧
    (atStart 62 1 [0xFD]).payload.readByte 0 = some 0xFD ∧
    (atStart 62 1 [0xFD]).count.toNat + (0xFD % 64 + 1) ≤ (atStart 62 1 [0xFD]).target.toNat ∧
    (atStart 61 1 [0xFD]).count.toNat < (atStart 61 1 [0xFD]).target.toNat ∧
    (atStart 61 1 [0xFD]).target.toNat < (atStart 61 1 [0xFD]).count.toNat + (0xFD % 64 + 1) := by decide

theorem witness_EndMarkerIsConsumedAtTheTarget :
    (atStart 0 5 endMarkerBytes).count = (atStart 0 5 endMarkerBytes).target ∧
    (atStart 0 5 endMarkerBytes).payload.readRange 0 8 = some [0, 0, 0, 0, 0, 0, 0, 1] ∧
    (atStart 1 1 [0x00]).count ≠ (atStart 1 1 [0x00]).target ∧
    nextHas (step (atStart 1 1 [0x00])) (fun _ => true) = true := by decide

/-- Vector E7's block: exactly eight pixels to go. -/
theorem witness_EarlyMarkerRunsAsEightIndexOpcodes :
    (atStart 8 1 endMarkerBytes).count.toNat + 8 ≤ (atStart 8 1 endMarkerBytes).target.toNat ∧
    (atStart 8 1 endMarkerBytes).payload.readRange 0 8 = some [0, 0, 0, 0, 0, 0, 0, 1] := by decide

/-- A RUN of 1 with one pixel left after it, from the start state; after it the slot holds `prev`. -/
theorem witness_RunWritesTheCacheOnce :
    (∃ t, exec (.run 1) (atStart 2 1 []) = .next t) ∧ (atStart 2 1 []).count.toNat + 1 < (atStart 2 1 []).target.toNat ∧
    cacheRead (pixelHash ((atStart 2 1 []).withRun 1).prev) ((atStart 2 1 []).withRun 1) =
      ((atStart 2 1 []).withRun 1).prev :=
  ⟨⟨_, rfl⟩, by decide, by decide⟩

theorem witness_NextIndexSeesTheLastCommit :
    (Instr.rgb 127 127 127).wellFormed = true ∧ Instr.rgb 127 127 127 ≠ .endMarker ∧
    (atStart 2 1 []).count.toNat +
      (pixelsOf (.rgb 127 127 127) (atStart 2 1 []).prev (atStart 2 1 []).cache).length < (atStart 2 1 []).target.toNat ∧
    ∃ t, exec (.rgb 127 127 127) (atStart 2 1 []) = .next t :=
  ⟨by decide, by decide, by decide, _, rfl⟩

theorem witness_StepRunsTheDecodedInstruction :
    ((atStart 1 1 [0x26]).running ∧ (atStart 1 1 [0x26]).payload.readRange 0 1 = some [0x26] ∧
      (atStart 1 1 [0x26]).count ≠ (atStart 1 1 [0x26]).target ∧ decodeOpcode [0x26] = .ok (.index 38)) ∧
    ((atStart 0 1 endMarkerBytes).running ∧
      (atStart 0 1 endMarkerBytes).payload.readRange 0 8 = some endMarkerBytes ∧
      (atStart 0 1 endMarkerBytes).count = (atStart 0 1 endMarkerBytes).target ∧
      decodeMarker endMarkerBytes = .ok .endMarker) :=
  ⟨⟨⟨rfl, rfl⟩, by decide, by decide, rfl⟩, ⟨⟨rfl, rfl⟩, by decide, by decide, rfl⟩⟩

theorem witness_PlacedWordIsTheNextInstruction :
    State.reset.fsm ≠ .busy ∧ decodeTableWord 8 0xFD = some (.run 62) ∧
    decodeTableWord 64 0x0100000000000000 = some .endMarker := by decide

theorem witness_MissingBytesAreTooFewPixels :
    (atStart 1 1 []).payload.len - (atStart 1 1 []).pos = 0 ∧
    (atStart 1 1 [0xFF, 1, 2, 3]).payload.readByte 0 = some 0xFF ∧
    (atStart 1 1 [0xFF, 1, 2, 3]).payload.len - 0 < tagLength 0xFF ∧
    (atStart 1 1 [0x00]).payload.readByte 0 = some 0x00 ∧ tagLength 0x00 = 1 ∧
    (atStart 1 1 []).count.toNat < (atStart 1 1 []).target.toNat := by decide

theorem witness_CompletionCheckBranches :
    (atStart 0 1 []).running ∧ (atStart 0 1 []).count = (atStart 0 1 []).target :=
  ⟨⟨rfl, rfl⟩, by decide⟩

/-- The payload of each clause: empty, a full marker, and a partial one under both policies. -/
theorem witness_ZeroPixelImageCompletesAtOnce :
    State.reset.fsm ≠ .busy ∧ State.reset.dutyBroken = none ∧ State.reset.payload.len = 0 ∧
    (Memory.ofBytes endMarkerBytes).readRange 0 8 = some [0, 0, 0, 0, 0, 0, 0, 1] ∧
    (Memory.ofBytes [0, 0, 0]).len ≠ 0 ∧ (Memory.ofBytes [0, 0, 0]).readRange 0 8 ≠ some [0, 0, 0, 0, 0, 0, 0, 1] ∧
    State.reset.config.trailing = .strict ∧ (lenient State.reset).config.trailing = .ignoreTrailing := by decide

theorem witness_ErroringStepWritesOnlyFsmAndErr :
    ∃ t, step (atStart 61 1 [0xFD]) = .next t ∧ t.fsm = .error := ⟨_, rfl, rfl⟩

theorem witness_OnlyABusyDecoderHasAStep :
    (atStart 1 1 []).running ∧ State.reset.fsm ≠ .busy ∧ State.reset.dutyBroken = none :=
  ⟨⟨rfl, rfl⟩, by decide, by decide⟩

theorem witness_ErrorChecksRunInOrder :
    (atStart 0 1 []).count = (atStart 0 1 []).target ∧
    ((atStart 1 1 []).count ≠ (atStart 1 1 []).target ∧ (atStart 1 1 []).payload.readByte 0 = none) ∧
    ((atStart 1 1 [0x80]).payload.readByte 0 = some 0x80 ∧ (atStart 1 1 [0x80]).payload.len - 0 < tagLength 0x80) ∧
    ((atStart 61 1 [0xFD]).payload.readByte 0 = some 0xFD ∧ tagLength 0xFD ≤ (atStart 61 1 [0xFD]).payload.len - 0 ∧
      (fetch (atStart 61 1 [0xFD])).toOption = some (.run 62)) ∧
    (fetch (atStart 62 1 [0xFD])).toOption = some (.run 62) := by decide

theorem witness_StepKeepsHeaderTargetAndPayload : ∃ t, step (atStart 1 1 [0xC0]) = .next t := ⟨_, rfl⟩

/-- A step that answers next, one that faults and one that is refused. -/
theorem witness_ChannelsAndColorspaceDoNotChangeDecoding :
    (∃ t, step (atStart 1 1 [0xC0]) = .next t) ∧ step State.reset = .fault (.noStep .idle) ∧
    step (breach .startWhileBusy (atStart 1 1 [0xC0])) = .refused (.hostDutyBroken .startWhileBusy) :=
  ⟨⟨_, rfl⟩, rfl, rfl⟩

/-- Two payloads that differ behind the opcode, and two that differ behind the marker. -/
theorem witness_OnlyTheOpcodesOwnBytesAreRead :
    ((∃ t, step (atStart 1 1 [0xC0, 1]) = .next t) ∧ (Memory.ofBytes [0xC0, 2]).len = (Memory.ofBytes [0xC0, 1]).len ∧
      (Memory.ofBytes [0xC0, 2]).readByte 0 = (Memory.ofBytes [0xC0, 1]).readByte 0 ∧ tagLength 0xC0 = 1 ∧
      (atStart 1 1 [0xC0, 1]).count ≠ (atStart 1 1 [0xC0, 1]).target) ∧
    ((∃ t, step (atStart 0 1 (endMarkerBytes ++ [1])) = .next t) ∧
      (∀ a, a < 8 → (Memory.ofBytes (endMarkerBytes ++ [2])).readByte a =
        (Memory.ofBytes (endMarkerBytes ++ [1])).readByte a) ∧
      (atStart 0 1 (endMarkerBytes ++ [1])).count = (atStart 0 1 (endMarkerBytes ++ [1])).target) :=
  ⟨⟨⟨_, rfl⟩, by decide, by decide, by decide, by decide⟩, ⟨⟨_, rfl⟩, by decide, by decide⟩⟩

/-- A block at the start of a decode meets the invariant. -/
theorem inv_atStart : Inv (atStart 1 1 [0xC0]) :=
  { payloadWf := by decide
    errIff := by decide
    decode := fun _ =>
      { outLength := rfl, countLe := by decide, targetEq := by decide, prevEq := rfl, cacheEq := rfl }
    cursor := fun _ => by decide
    doneFull := fun h => absurd h (by decide)
    markBusy := fun h => absurd rfl h }

/-- The same block one pixel on. -/
theorem inv_onePixel : Inv ((atStart 1 1 [0xC0]).withRun 1) :=
  { payloadWf := by decide
    errIff := by decide
    decode := fun _ =>
      { outLength := by decide, countLe := by decide, targetEq := by decide, prevEq := by decide, cacheEq := rfl }
    cursor := fun _ => by decide
    doneFull := fun h => absurd h (by decide)
    markBusy := fun h => absurd rfl h }

/-- The same block, DONE. -/
theorem inv_done : Inv (finish ((atStart 1 1 [0xC0]).withRun 1)) :=
  { payloadWf := by decide
    errIff := by decide
    decode := fun _ =>
      { outLength := by decide, countLe := by decide, targetEq := by decide, prevEq := by decide, cacheEq := rfl }
    cursor := fun h => absurd h (by decide)
    doneFull := fun _ => by decide
    markBusy := fun h => absurd rfl h }

theorem witness_StepKeepsTheInvariant :
    Inv (atStart 1 1 [0xC0]) ∧ ∃ t, step (atStart 1 1 [0xC0]) = .next t := ⟨inv_atStart, _, rfl⟩

theorem witness_HostActionsKeepTheInvariant :
    Inv (atStart 1 1 [0xC0]) ∧ ∃ t, hostAct (.loadPayload [1]) (atStart 1 1 [0xC0]) = .next t := ⟨inv_atStart, _, rfl⟩

theorem witness_EveryReachableStateIsSafe : ∃ s, Reachable s ∧ s.running :=
  ⟨start ⟨1, 1, .rgb, .srgb⟩ { State.reset with config := Config.standard },
    .host (.start ⟨1, 1, .rgb, .srgb⟩) _ _ (.reset Config.standard) rfl, rfl, rfl⟩

theorem witness_CacheSlotsHoldZeroOrTheirOwnHash :
    Inv ((atStart 1 1 [0xC0]).withRun 1) ∧ ((atStart 1 1 [0xC0]).withRun 1).fsm = .busy ∧ (53 : Slot) ≠ 0 :=
  ⟨inv_onePixel, rfl, by decide⟩

theorem witness_PrevIsInItsSlotAfterTheFirstPixel :
    Inv ((atStart 1 1 [0xC0]).withRun 1) ∧ ((atStart 1 1 [0xC0]).withRun 1).fsm = .busy ∧
    ((atStart 1 1 [0xC0]).withRun 1).count ≠ 0 :=
  ⟨inv_onePixel, rfl, by decide⟩

theorem witness_EveryDecodeEndsInBoundedSteps :
    (Inv (atStart 1 1 [0xC0]) ∧ (atStart 1 1 [0xC0]).running) ∧
    (Inv (finish ((atStart 1 1 [0xC0]).withRun 1)) ∧ (finish ((atStart 1 1 [0xC0]).withRun 1)).fsm ≠ .busy) :=
  ⟨⟨inv_atStart, rfl, rfl⟩, inv_done, by decide⟩

theorem witness_SuccessfulDecodeHasEveryPixel :
    Inv (finish ((atStart 1 1 [0xC0]).withRun 1)) ∧ (finish ((atStart 1 1 [0xC0]).withRun 1)).fsm = .done ∧
    (raised .tooFewPixels State.reset).fsm = .error :=
  ⟨inv_done, rfl, rfl⟩

theorem witness_StartInitialisesTheDecode : State.reset.fsm ≠ .busy := by decide

/-- Two different blocks that agree on parameters, payload and mark. -/
theorem witness_NoStateCarriesIntoTheNextDecode :
    State.reset.config = (raised .tooFewPixels State.reset).config ∧
    State.reset.payload = (raised .tooFewPixels State.reset).payload ∧
    State.reset.dutyBroken = (raised .tooFewPixels State.reset).dutyBroken ∧
    State.reset.fsm ≠ (raised .tooFewPixels State.reset).fsm := by decide

theorem witness_BrokenHostDutyIsRefusedUntilReset :
    (atStart 1 1 []).fsm = .busy ∧
    (parseHeader (([0x71, 0x6F, 0x69, 0x66, 0, 0, 0, 1, 0, 0, 0, 1, 3, 0, 0xC0] : List Byte).take 14)).toOption =
      some { width := 1, height := 1, channels := .rgb, colorspace := .srgb } ∧
    headerKind (([] : List Byte).take 14) = .tooShortHeader ∧
    (breach .payloadChanged (atStart 1 1 [])).dutyBroken = some .payloadChanged ∧
    HostAction.loadPayload [1] ≠ .hardReset ∧
    ∃ t, hostAct (.loadPayload [1]) (breach .payloadChanged (atStart 1 1 [])) = .next t :=
  ⟨rfl, by decide, by decide, rfl, by decide, _, rfl⟩

/-- A limit of 2 bytes: a payload of 2 is accepted, one of 3 is not. -/
theorem witness_LoadPlacesAnAcceptedPayload :
    State.reset.fsm ≠ .busy ∧
    ({ State.reset.config with maxPayloadLen := some 2 } : Config).maxPayloadLen = some 2 ∧
    ([1, 2] : List Byte).length ≤ 2 ∧ 2 < ([1, 2, 3] : List Byte).length := by decide

/-- One header for each clause, each as short as the clause allows. -/
theorem witness_HeaderChecksRunInOffsetOrder :
    ([0x71, 0x6F, 0x69] : List Byte).length < 4 ∧
    (4 ≤ ([0, 0, 0, 0] : List Byte).length ∧ ([0, 0, 0, 0] : List Byte).take 4 ≠ [0x71, 0x6F, 0x69, 0x66]) ∧
    ([0x71, 0x6F, 0x69, 0x66, 0, 0, 0, 1, 0, 0, 0, 1] : List Byte).length < 13 ∧
    ([0x71, 0x6F, 0x69, 0x66, 0, 0, 0, 1, 0, 0, 0, 1, 5] : List Byte)[12]? = some 5 ∧
    ([0x71, 0x6F, 0x69, 0x66, 0, 0, 0, 1, 0, 0, 0, 1, 4] : List Byte).length = 13 ∧
    ([0x71, 0x6F, 0x69, 0x66, 0, 0, 0, 1, 0, 0, 0, 1, 4, 2] : List Byte)[13]? = some 2 ∧
    ([0x71, 0x6F, 0x69, 0x66, 0, 0, 0, 1, 0, 0, 0, 1, 4, 1] : List Byte)[13]? = some 1 := by decide

theorem witness_HeaderDimensionsAreBigEndian :
    (parseHeader [0x71, 0x6F, 0x69, 0x66, 0xFF, 0xFF, 0xFF, 0xFF, 0, 0, 0, 0, 4, 1]).toOption =
      some { width := 0xFFFFFFFF, height := 0, channels := .rgba, colorspace := .linear } := by decide

/-- A file of one payload byte: a limit of 1 accepts it, a limit of 0 does not. -/
theorem witness_BootingAFileStartsOrReportsTheHeaderError :
    State.reset.fsm ≠ .busy ∧
    ({ State.reset.config with maxPayloadLen := some 1 } : Config).maxPayloadLen = some 1 ∧
    ({ State.reset.config with maxPayloadLen := some 0 } : Config).maxPayloadLen = some 0 ∧
    (([0x71, 0x6F, 0x69, 0x66, 0, 0, 0, 1, 0, 0, 0, 1, 3, 0, 0xC0] : List Byte).drop 14).length = 1 ∧
    (parseHeader (([0x71, 0x6F, 0x69, 0x66, 0, 0, 0, 1, 0, 0, 0, 1, 3, 0, 0xC0] : List Byte).take 14)).toOption =
      some { width := 1, height := 1, channels := .rgb, colorspace := .srgb } ∧
    headerKind (([] : List Byte).take 14) = .tooShortHeader ∧ State.reset.config.headerIntegrated = false ∧
    ({ State.reset.config with headerIntegrated := true } : Config).headerIntegrated = true := by decide

theorem witness_PackedBytesAreInScanOrder :
    (finish State.reset).dutyBroken = none ∧ (finish State.reset).fsm = .done ∧ State.reset.fsm ≠ .done := by decide

theorem witness_ErrorObservationHoldsNoPixels :
    (finish State.reset).dutyBroken = none ∧ (finish State.reset).fsm = .done ∧
    (raised .tooFewPixels State.reset).fsm = .error ∧ (raised .tooFewPixels (atStart 1 1 [])).fsm = .error ∧
    (raised .tooFewPixels State.reset).err = (raised .tooFewPixels (atStart 1 1 [])).err ∧
    State.reset.fsm = .idle ∧ (atStart 1 1 []).fsm = .busy := by decide

theorem witness_StatusCodesAreTheSpecs :
    (pollStatus State.reset).fsm = (pollStatus State.reset).fsm ∧
    (pollStatus State.reset).err = (pollStatus (atStart 1 1 [])).err := by decide

theorem witness_MetadataGivesDimensionsAndFormat : ∃ t, step (atStart 1 1 [0xC0]) = .next t := ⟨_, rfl⟩

end Sys2Proof.Tests
end

/-! The proofs about the decode state (spec/10_state.md): the rules of `commitAll` and of each step's end for the
invariant, what a cache slot holds, and the statements they settle. -/

namespace Sys2Proof.Machine

/-! ### What commits do to the decode state -/

/-- After appending `ps`, the last pixel is the last of `ps`, or the one before if `ps` is empty. -/
theorem lastPixel_append (out ps : List Pixel) : lastPixel (out ++ ps) = ps.getLastD (lastPixel out) := by
  cases h : ps.getLast? <;> simp [lastPixel, List.getLastD_eq_getLast?, h]

/-- A group of commits that stays below a 64-bit bound counts without wrapping (R26). -/
theorem commitAll_count_toNat {ps : List Pixel} {s : State} {n : Count}
    (h : s.count.toNat + ps.length ≤ n.toNat) :
    (commitAll ps s).count.toNat = s.count.toNat + ps.length := by
  have hn := n.isLt
  rw [commitAll_count, BitVec.toNat_add, BitVec.toNat_ofNat]
  omega

/-- Commits that fit under the target keep the decode state (R21, R22, R26, R31). -/
theorem DecodeInv.commitAll {ps : List Pixel} {s : State} (hi : DecodeInv s)
    (hfit : s.count.toNat + ps.length ≤ s.target.toNat) : DecodeInv (commitAll ps s) where
  outLength := by rw [commitAll_count_toNat hfit, commitAll_out, List.length_append, hi.outLength]
  countLe := by rw [commitAll_count_toNat hfit, commitAll_target]; exact hfit
  targetEq := by simpa using hi.targetEq
  prevEq := by rw [commitAll_prev, commitAll_out, lastPixel_append, hi.prevEq]
  cacheEq := by rw [commitAll_cache, commitAll_out, outCache, List.foldl_append, hi.cacheEq, outCache]

/-- The cursor is no part of the decode state. -/
theorem DecodeInv.advance {s : State} (hi : DecodeInv s) (n : Nat) : DecodeInv (advance n s) :=
  { hi with }

/-- Nor is `fsm`: the end of a decode leaves it as it was. -/
theorem DecodeInv.finish {s : State} (hi : DecodeInv s) : DecodeInv (finish s) :=
  { hi with }

/-! ### The three ends of a step keep the invariant -/

/-- An error ends an unmarked decode (R30, R211). -/
theorem inv_raised {e : ErrKind} {s : State} (he : e ≠ .none) (hwf : s.payload.wf = true)
    (hmark : s.dutyBroken = none) : Inv (raised e s) where
  payloadWf := hwf
  errIff := by simp [he]
  decode := by simp
  cursor := by simp
  doneFull := by simp
  markBusy hm := absurd hmark hm

/-- A decode with every pixel ends in DONE (R114, R180). -/
theorem inv_finish {s : State} (hwf : s.payload.wf = true) (herr : s.err = .none) (hdec : DecodeInv s)
    (hfull : s.count = s.target) (hmark : s.dutyBroken = none) : Inv (finish s) where
  payloadWf := hwf
  errIff := by simp [herr]
  decode _ := hdec.finish
  cursor := by simp
  doneFull _ := hfull
  markBusy hm := absurd hmark hm

/-- An opcode of `n` bytes that fits, in the payload and under the target, leaves a running decode running (R25, R26). -/
theorem inv_advance_commitAll {n : Nat} {ps : List Pixel} {s : State} (hi : Inv s) (hrun : s.running)
    (hfit : s.count.toNat + ps.length ≤ s.target.toNat) (hbytes : s.pos + n ≤ s.payload.len) :
    Inv (advance n (commitAll ps s)) where
  payloadWf := by simpa using hi.payloadWf
  errIff := by simpa using hi.errIff
  decode _ := ((hi.decode (.inl hrun.1)).commitAll hfit).advance n
  cursor _ := by simpa using hbytes
  doneFull hd := by simp [hrun.1] at hd
  markBusy _ := by simpa using hrun.1

/-- Settles O36: each of the five things a step can do (`step_cases`) keeps the invariant. -/
theorem stepKeepsTheInvariant : Obligations.StepKeepsTheInvariant := by
  intro s t hi hstep
  obtain ⟨hrun, hcases⟩ := step_cases hstep
  have hwf := hi.payloadWf
  have herr : s.err = .none := hi.errIff.mpr (by simp [hrun.1])
  have hdec : DecodeInv s := hi.decode (.inl hrun.1)
  obtain ⟨-, i, hfetch, hfit, rfl⟩ | ⟨-, rfl⟩ | rfl | ⟨hfull, rfl⟩ | ⟨hfull, rfl⟩ := hcases
  · obtain ⟨-, -, -, -, -, -, -, hbytes⟩ := fetch_ok hfetch
    exact inv_advance_commitAll hi hrun hfit hbytes
  · exact inv_raised (by decide) hwf hrun.2
  · exact inv_raised (by decide) hwf hrun.2
  · exact inv_finish hwf herr hdec hfull hrun.2
  · exact inv_finish hwf herr (hdec.advance 8) hfull hrun.2

/-- Settles O32: the frame of each of the five things a step can do; only the first appends pixels. -/
theorem stepKeepsHeaderTargetAndPayload : Obligations.StepKeepsHeaderTargetAndPayload := by
  intro s t hstep
  obtain ⟨-, i, -, -, rfl⟩ | ⟨-, rfl⟩ | rfl | ⟨-, rfl⟩ | ⟨-, rfl⟩ := (step_cases hstep).2
  · exact ⟨by simp, by simp, by simp, by simp, by simp, by simp, by simp, by simp, by simp,
      _, commitAll_out _ s, commitAll_count _ s⟩
  all_goals exact ⟨rfl, rfl, rfl, rfl, rfl, rfl, rfl, rfl, by simp, [], by simp⟩

/-! ### What a cache slot holds -/

/-- The zero pixel's hash is 0 (R23, R58). -/
theorem pixelHash_zero : pixelHash Pixel.zero = 0 := by decide

/-- The pixels of `out` whose hash is slot `i`, in commit order. -/
def pixelsOfSlot (i : Slot) (out : List Pixel) : List Pixel := out.filter (fun p => pixelHash p = i)

/-- Commits leave in a slot the last of their pixels of its hash, or what it held if there is none (R57, R108). -/
theorem commits_slot (out : List Pixel) (cache : Cache) (i : Slot) :
    (out.foldl (fun c p => c.set (pixelHash p).toNat p (pixelHash p).isLt) cache)[i.toNat]'i.isLt =
      (pixelsOfSlot i out).getLastD (cache[i.toNat]'i.isLt) := by
  induction out generalizing cache with
  | nil => rfl
  | cons p out ih =>
    rw [List.foldl_cons, ih, pixelsOfSlot, pixelsOfSlot]
    by_cases hp : pixelHash p = i
    · subst hp
      rw [List.filter_cons_of_pos (by simp only [decide_true]), List.getLastD_cons, Vector.getElem_set_self]
    · have hne : (pixelHash p).toNat ≠ i.toNat := fun e => hp (BitVec.eq_of_toNat_eq e)
      rw [List.filter_cons_of_neg (by simp only [hp, decide_false, Bool.false_eq_true, not_false_eq_true]),
        Vector.getElem_set_ne _ _ hne]

/-- The cache of a decode holds, in each slot, the last committed pixel of its hash, or the zero pixel (R22, R57). -/
theorem outCache_slot (out : List Pixel) (i : Slot) :
    (outCache out)[i.toNat]'i.isLt = (pixelsOfSlot i out).getLastD Pixel.zero := by
  rw [outCache, commits_slot, Cache.zeros, Vector.getElem_replicate]

/-- In a decode, a slot reads as the last committed pixel of its hash, or the zero pixel (R23, R56). -/
theorem DecodeInv.cacheRead_eq {s : State} (hi : DecodeInv s) (i : Slot) :
    cacheRead i s = (pixelsOfSlot i s.out).getLastD Pixel.zero := by
  rw [← outCache_slot, cacheRead]
  simp only [hi.cacheEq]

/-- In a decode, a slot of whose hash no pixel was committed holds the zero pixel, as at the start. -/
theorem DecodeInv.cacheRead_eq_zero {s : State} (hi : DecodeInv s) {i : Slot}
    (h : ∀ p ∈ s.out, pixelHash p ≠ i) : cacheRead i s = Pixel.zero := by
  have hnil : pixelsOfSlot i s.out = [] := by simpa [pixelsOfSlot] using h
  rw [hi.cacheRead_eq, hnil, List.getLastD_nil]

/-- In a decode, a slot of whose hash some pixel was committed holds a pixel of that hash. -/
theorem DecodeInv.pixelHash_cacheRead {s : State} (hi : DecodeInv s) {p : Pixel} (hp : p ∈ s.out) :
    pixelHash (cacheRead (pixelHash p) s) = pixelHash p := by
  have hne : pixelsOfSlot (pixelHash p) s.out ≠ [] :=
    List.ne_nil_of_mem (a := p) (by simpa [pixelsOfSlot] using hp)
  rw [hi.cacheRead_eq, List.getLastD_eq_getLast?, List.getLast?_eq_some_getLast hne, Option.getD_some]
  exact of_decide_eq_true (List.mem_filter.mp (List.getLast_mem hne)).2

/-- In a decode, the slot of the last committed pixel's hash holds that pixel (R24). -/
theorem DecodeInv.cacheRead_prev {s : State} (hi : DecodeInv s) (hne : s.out ≠ []) :
    cacheRead (pixelHash s.prev) s = s.prev := by
  obtain ⟨out, p, hout⟩ := List.eq_nil_or_concat s.out |>.resolve_left hne
  have hprev : s.prev = p := by rw [hi.prevEq, hout]; simp [lastPixel]
  simp [hi.cacheRead_eq, hprev, hout, pixelsOfSlot]

/-- Settles O39: a slot holds a pixel of its hash where one was committed, and the zero pixel, of hash 0, elsewhere. -/
theorem cacheSlotsHoldZeroOrTheirOwnHash : Obligations.CacheSlotsHoldZeroOrTheirOwnHash := by
  intro s hinv hfsm
  have hi : DecodeInv s := hinv.decode hfsm
  have hslot (i : Slot) : cacheRead i s = Pixel.zero ∨ pixelHash (cacheRead i s) = i := by
    by_cases h : ∃ p ∈ s.out, pixelHash p = i
    · obtain ⟨p, hp, rfl⟩ := h
      exact .inr (hi.pixelHash_cacheRead hp)
    · exact .inl (hi.cacheRead_eq_zero fun p hp hpi => h ⟨p, hp, hpi⟩)
  refine ⟨hslot, ?_, fun i hi0 => ⟨fun hzero p hp hpi => hi0 ?_, hi.cacheRead_eq_zero⟩⟩
  · obtain hzero | hhash := hslot 0
    · rw [hzero, pixelHash_zero]
    · exact hhash
  · calc i = pixelHash (cacheRead i s) := by rw [← hpi, hi.pixelHash_cacheRead hp]
      _ = pixelHash Pixel.zero := congrArg pixelHash hzero
      _ = 0 := pixelHash_zero

/-- Settles O40: `count` not 0 means that `out` is not empty, so `prev` is in its slot; a `start` clears slot 53. -/
theorem prevIsInItsSlotAfterTheFirstPixel : Obligations.PrevIsInItsSlotAfterTheFirstPixel := by
  refine ⟨fun s hinv hfsm hcount => ?_, fun h s => ⟨rfl, by rw [start_prev]; decide, rfl⟩⟩
  have hi : DecodeInv s := hinv.decode hfsm
  refine hi.cacheRead_prev fun hnil => hcount (BitVec.eq_of_toNat_eq ?_)
  rw [← hi.outLength, hnil]
  rfl

/-! ### Reset, start and the status registers -/

/-- Settles O35: hardware reset leaves IDLE, NONE, no mark and the empty payload, so no clause about a decode applies. -/
theorem resetMeetsTheInvariant : Obligations.ResetMeetsTheInvariant := fun c =>
  { payloadWf := rfl
    errIff := by simp [State.reset]
    decode := by simp [State.reset]
    cursor := by simp [State.reset]
    doneFull := by simp [State.reset]
    markBusy := by simp [State.reset] }

/-- Settles O45: the parameters, the payload and the mark are all that `start` keeps of the block. -/
theorem noStateCarriesIntoTheNextDecode : Obligations.NoStateCarriesIntoTheNextDecode := by
  intro h s s' hconfig hpayload hmark
  simp only [start, hconfig, hpayload, hmark]

/-- The state of the block a code stands for (R29). -/
def Fsm.ofCode (c : BitVec 2) : Fsm := [.idle, .busy, .done].getD c.toNat .error

/-- The error kind a code stands for (R210). -/
def ErrKind.ofCode (c : BitVec 3) : ErrKind :=
  [.none, .invalidMagic, .tooShortHeader, .invalidChannels, .invalidColorspace, .invalidPixel,
    .tooFewPixels].getD c.toNat .tooManyPixels

theorem Fsm.ofCode_code (f : Fsm) : Fsm.ofCode f.code = f := by cases f <;> rfl

theorem ErrKind.ofCode_code (e : ErrKind) : ErrKind.ofCode e.code = e := by cases e <;> rfl

theorem Channels.bit_eq (c : Channels) : c.bit = if c = .rgb then 0 else 1 := by cases c <;> rfl

theorem Colorspace.bit_eq (c : Colorspace) : c.bit = if c = .srgb then 0 else 1 := by cases c <;> rfl

/-- Settles O53: a poll gives the registers by their codes, and each code can be read back. -/
theorem statusCodesAreTheSpecs : Obligations.StatusCodesAreTheSpecs := by
  refine ⟨rfl, rfl, rfl, rfl, rfl, rfl, rfl, rfl, rfl, rfl, rfl, rfl, fun s => ?_, fun s s' h => ?_, fun s s' h => ?_⟩
  · exact ⟨rfl, rfl, rfl, rfl, Channels.bit_eq _, Colorspace.bit_eq _, rfl, rfl, rfl⟩
  · exact Function.LeftInverse.injective Fsm.ofCode_code h
  · exact Function.LeftInverse.injective ErrKind.ofCode_code h

end Sys2Proof.Machine

/-! The proofs about the operands and payload memory (spec/20_memory.md): the hash and the word view of a pixel, what a
read of payload memory gives, and what a step reads of it. -/

namespace Sys2Proof.Machine

/-! ### The hash and the word view -/

/-- The low 6 bits of the weighted sum do not depend on the accumulator's width (R59): `setWidth 6` keeps sums and
products, so every width gives the 6-bit sum, and so does the sum over the integers. -/
theorem weightedSum_setWidth_eq_pixelHash (p : Pixel) {w : Nat} (hw : 6 ≤ w) :
    (p.r.setWidth w * BitVec.ofNat w 3 + p.g.setWidth w * BitVec.ofNat w 5 + p.b.setWidth w * BitVec.ofNat w 7
      + p.a.setWidth w * BitVec.ofNat w 11).setWidth 6 = pixelHash p := by
  have hmod (n : Nat) : BitVec.ofNat 6 (n % 64) = BitVec.ofNat 6 n := BitVec.eq_of_toNat_eq (by simp)
  simp only [pixelHash, hmod, BitVec.ofNat_add, BitVec.ofNat_mul, BitVec.ofNat_toNat, BitVec.setWidth_add _ _ hw,
    BitVec.setWidth_mul _ _ hw, BitVec.setWidth_setWidth_of_le _ hw, BitVec.setWidth_ofNat_of_le hw]

/-- The hash as a number (R58). -/
theorem pixelHash_toNat (p : Pixel) :
    (pixelHash p).toNat = (p.r.toNat * 3 + p.g.toNat * 5 + p.b.toNat * 7 + p.a.toNat * 11) % 64 := by
  simp [pixelHash]

/-- The 8-bit-wrapping hash is the one of an 8-bit accumulator (R59). -/
theorem hashWrapped_eq_pixelHash (p : Pixel) : hashWrapped p = pixelHash p := by
  rw [← weightedSum_setWidth_eq_pixelHash p (show 6 ≤ 8 by decide)]
  simp [hashWrapped]

/-- Settles O7: the 8-bit computation is one of those with an accumulator of at least 6 bits, which all agree. -/
theorem hashIsTheSameAtEveryAccumulatorWidth : Obligations.HashIsTheSameAtEveryAccumulatorWidth := fun p =>
  ⟨pixelHash_toNat p, hashWrapped_eq_pixelHash p, fun _ hw => weightedSum_setWidth_eq_pixelHash p hw⟩

/-- R in bits 31:24 (R60). -/
theorem Pixel.toWord_r (p : Pixel) : p.toWord.extractLsb' 24 8 = p.r :=
  (BitVec.extractLsb'_append_eq_of_le (by decide)).trans <|
    (BitVec.extractLsb'_append_eq_of_le (by decide)).trans BitVec.extractLsb'_append_eq_left

/-- G in bits 23:16 (R60). -/
theorem Pixel.toWord_g (p : Pixel) : p.toWord.extractLsb' 16 8 = p.g :=
  (BitVec.extractLsb'_append_eq_of_le (by decide)).trans <|
    (BitVec.extractLsb'_append_eq_of_le (by decide)).trans BitVec.extractLsb'_append_eq_right

/-- B in bits 15:8 (R60). -/
theorem Pixel.toWord_b (p : Pixel) : p.toWord.extractLsb' 8 8 = p.b :=
  (BitVec.extractLsb'_append_eq_of_le (by decide)).trans BitVec.extractLsb'_append_eq_right

/-- A in bits 7:0 (R60). -/
theorem Pixel.toWord_a (p : Pixel) : p.toWord.extractLsb' 0 8 = p.a := BitVec.extractLsb'_append_eq_right

theorem Pixel.ofWord_toWord (p : Pixel) : Pixel.ofWord p.toWord = p := by
  rw [Pixel.ofWord, p.toWord_r, p.toWord_g, p.toWord_b, p.toWord_a]

/-- The four bytes of a word, joined in the order of R60, are the word: each join extends the slice downwards. -/
theorem Pixel.toWord_ofWord (w : BitVec 32) : (Pixel.ofWord w).toWord = w := by
  dsimp only [Pixel.ofWord, Pixel.toWord]
  rw [BitVec.extractLsb'_append_extractLsb'_eq_extractLsb' (show 24 = 16 + 8 from rfl),
    BitVec.extractLsb'_append_extractLsb'_eq_extractLsb' (show 16 = 8 + 8 from rfl),
    BitVec.extractLsb'_append_extractLsb'_eq_extractLsb' (show 8 = 0 + 8 from rfl)]
  exact BitVec.extractLsb'_eq_self

/-- Settles O9: the four fields of the word, one by one, and the two round trips. -/
theorem cacheWordViewKeepsEveryChannel : Obligations.CacheWordViewKeepsEveryChannel :=
  ⟨fun p => ⟨p.toWord_r, p.toWord_g, p.toWord_b, p.toWord_a, p.ofWord_toWord⟩, Pixel.toWord_ofWord⟩

/-! ### Reads of payload memory -/

theorem Memory.readByte_of_lt {m : Memory} {a : Nat} (h : a < m.len) : m.readByte a = some (cellAt a m.cells) :=
  if_pos h

theorem Memory.readByte_of_le {m : Memory} {a : Nat} (h : m.len ≤ a) : m.readByte a = none := if_neg (by omega)

/-- A loaded payload lists the bytes loaded. -/
theorem cellAt_ofBytes (bs : List Byte) (a : Nat) : cellAt a (Memory.ofBytes bs).cells = bs.getD a 0 := by
  simp [Memory.ofBytes, cellAt_cellsOf]

theorem Memory.readByte_ofBytes (bs : List Byte) (a : Nat) : (Memory.ofBytes bs).readByte a = bs[a]? := by
  by_cases h : a < bs.length
  · rw [Memory.readByte_of_lt h, cellAt_ofBytes]
    simp [h]
  · rw [Memory.readByte_of_le (Nat.le_of_not_lt h), List.getElem?_eq_none (Nat.le_of_not_lt h)]

theorem Memory.readRange_ofBytes (bs : List Byte) (a n : Nat) :
    (Memory.ofBytes bs).readRange a n = if a + n ≤ bs.length then some ((bs.drop a).take n) else none := by
  refine ite_congr rfl (fun (h : a + n ≤ bs.length) => congrArg some ?_) (fun _ => rfl)
  have hlen : n = min n (bs.length - a) := by omega
  refine List.ext_getElem ?_ fun i hi _ => ?_
  · rwa [List.length_map, List.length_range, List.length_take, List.length_drop]
  have hin : i < n := by rwa [List.length_map, List.length_range] at hi
  have hlt : a + i < bs.length := by omega
  simp [cellAt_ofBytes, hlt]

/-- Settles O11: what is listed at an address of a loaded payload is the byte loaded there (`cellAt_ofBytes`). -/
theorem payloadReadsAreTheLoadedBytes : Obligations.PayloadReadsAreTheLoadedBytes := fun bs a n =>
  ⟨rfl, Memory.readByte_ofBytes bs a, Memory.readRange_ofBytes bs a n⟩

/-! ### The canonical form -/

/-- What the canonical form says of a first cell and of the cells after it. -/
theorem cellsWf_cons {lo len x : Nat} {b : Byte} {cs : List Host.Cell} :
    cellsWf lo len ((x, b) :: cs) = true ↔ lo ≤ x ∧ x < len ∧ b ≠ 0 ∧ cellsWf (x + 1) len cs = true := by
  simp [cellsWf, and_assoc]

theorem cellAt_cons_self (x : Nat) (b : Byte) (cs : List Host.Cell) : cellAt x ((x, b) :: cs) = b := if_pos rfl

theorem cellAt_cons_ne {a x : Nat} (h : x ≠ a) (b : Byte) (cs : List Host.Cell) :
    cellAt a ((x, b) :: cs) = cellAt a cs := if_neg h

/-- At or above `len` nothing is listed. -/
theorem cellAt_above {lo len a : Nat} (h : len ≤ a) :
    ∀ {cs : List Host.Cell}, cellsWf lo len cs = true → cellAt a cs = 0
  | [], _ => rfl
  | (x, b) :: cs, hw => by
    obtain ⟨-, hx, -, hcs⟩ := cellsWf_cons.mp hw
    rw [cellAt_cons_ne (by omega)]
    exact cellAt_above h hcs

/-- Cells that read at `x` as the cells starting there do start at `x` or before: below its first cell a list reads 0,
and the byte at `x` is not 0. -/
theorem cells_head_le {lo len x y : Nat} {b c : Byte} {cs cs' : List Host.Cell}
    (hw : cellsWf lo len ((x, b) :: cs) = true) (hw' : cellsWf lo len ((y, c) :: cs') = true)
    (h : cellAt x ((x, b) :: cs) = cellAt x ((y, c) :: cs')) : y ≤ x := by
  obtain ⟨-, -, hb, -⟩ := cellsWf_cons.mp hw
  obtain ⟨-, hy, hc, hcs'⟩ := cellsWf_cons.mp hw'
  refine Nat.le_of_not_lt fun hlt => ?_
  have hzero : cellAt x ((y, c) :: cs') = 0 :=
    cellAt_below (lo := y) (len := len) hlt (cellsWf_cons.mpr ⟨Nat.le_refl y, hy, hc, hcs'⟩)
  rw [cellAt_cons_self, hzero] at h
  exact hb h

/-- Cells in canonical form that read alike at every address are the same: their first cells agree, by `cells_head_le`
both ways, and so do the cells after them. -/
theorem cells_ext {len : Nat} : ∀ {lo : Nat} {cs cs' : List Host.Cell}, cellsWf lo len cs = true →
    cellsWf lo len cs' = true → (∀ a, cellAt a cs = cellAt a cs') → cs = cs'
  | _, [], [], _, _, _ => rfl
  | _, [], (y, c) :: cs', _, hw', h => by
    obtain ⟨-, -, hc, -⟩ := cellsWf_cons.mp hw'
    exact absurd ((h y).trans (cellAt_cons_self y c cs')).symm hc
  | _, (x, b) :: cs, [], hw, _, h => by
    obtain ⟨-, -, hb, -⟩ := cellsWf_cons.mp hw
    exact absurd ((cellAt_cons_self x b cs).symm.trans (h x)) hb
  | _, (x, b) :: cs, (y, c) :: cs', hw, hw', h => by
    obtain rfl : x = y := Nat.le_antisymm (cells_head_le hw' hw (h y).symm) (cells_head_le hw hw' (h x))
    obtain ⟨-, -, -, hcs⟩ := cellsWf_cons.mp hw
    obtain ⟨-, -, -, hcs'⟩ := cellsWf_cons.mp hw'
    have hbyte : b = c := by simpa only [cellAt_cons_self] using h x
    have htail (a : Nat) : cellAt a cs = cellAt a cs' := by
      by_cases hxa : x = a
      · subst hxa
        rw [cellAt_below (Nat.lt_succ_self x) hcs, cellAt_below (Nat.lt_succ_self x) hcs']
      · simpa only [cellAt_cons_ne hxa] using h a
    rw [hbyte, cells_ext hcs hcs' htail]

/-- Settles O12: below `len` the cells of both read alike, above it neither lists anything, so `cells_ext` applies. -/
theorem equalPayloadsAreEqualData : Obligations.EqualPayloadsAreEqualData := by
  rintro ⟨len, cs⟩ ⟨_, cs'⟩ hwf hwf' ⟨rfl : len = _⟩ hread
  have hcells : cs = cs' := cells_ext hwf hwf' fun a => by
    by_cases ha : a < len
    · simpa only [Memory.readByte, if_pos ha, Option.some.injEq] using hread a
    · rw [cellAt_above (Nat.le_of_not_lt ha) hwf, cellAt_above (Nat.le_of_not_lt ha) hwf']
  rw [hcells]

/-! ### What a step reads of the payload -/

/-- `MemRead` depends on the length and on the bytes it gives, and on nothing else (R51). -/
theorem Memory.readRange_congr {m m' : Memory} {a n : Nat} (hlen : m.len = m'.len)
    (h : ∀ x, a ≤ x → x < a + n → m.readByte x = m'.readByte x) : m.readRange a n = m'.readRange a n := by
  unfold Memory.readRange
  rw [hlen]
  refine ite_congr rfl (fun hfit => congrArg some (List.map_congr_left fun i hi => ?_)) (fun _ => rfl)
  have hi : i < n := List.mem_range.mp hi
  have hbyte := h (a + i) (by omega) (by omega)
  rwa [Memory.readByte_of_lt (by omega), Memory.readByte_of_lt (by omega), Option.some.injEq] at hbyte

section
variable {s t : State} {m : Memory}

/-- The fetch reads the tag and the bytes its length asks for (R51, R101). -/
theorem fetch_payload_congr (hlen : m.len = s.payload.len)
    (h : ∀ b, s.payload.readByte s.pos = some b →
      ∀ a, s.pos ≤ a → a < s.pos + tagLength b → m.readByte a = s.payload.readByte a) :
    fetch { s with payload := m } = fetch s := by
  unfold fetch
  cases htag : s.payload.readByte s.pos with
  | none =>
    have hend : s.payload.len ≤ s.pos := Nat.le_of_not_lt fun hlt => by
      rw [Memory.readByte_of_lt hlt] at htag
      cases htag
    have htag' : m.readByte s.pos = none := Memory.readByte_of_le (by omega)
    simp only [htag']
  | some b =>
    have htag' : m.readByte s.pos = some b := by
      rw [h b htag s.pos (Nat.le_refl _) (by have := tagLength_pos b; omega), htag]
    have hbytes : m.readRange s.pos (tagLength b) = s.payload.readRange s.pos (tagLength b) :=
      Memory.readRange_congr hlen (h b htag)
    simp only [htag', hbytes]

/-- The completion check reads eight bytes (R51, R181). -/
theorem fetchMarker_payload_congr (hlen : m.len = s.payload.len)
    (h : ∀ a, s.pos ≤ a → a < s.pos + 8 → m.readByte a = s.payload.readByte a) :
    fetchMarker { s with payload := m } = fetchMarker s := by
  have hbytes : m.readRange s.pos 8 = s.payload.readRange s.pos 8 := Memory.readRange_congr hlen h
  simp only [fetchMarker, hbytes]

theorem commitAll_payload_update (ps : List Pixel) (s : State) (m : Memory) :
    commitAll ps { s with payload := m } = { commitAll ps s with payload := m } := by
  induction ps generalizing s with
  | nil => rfl
  | cons p ps ih => exact ih (commit p s)

/-- The common end of an opcode does the same with any payload. -/
theorem produce_payload_update {n : Nat} {ps : List Pixel} (m : Memory) (h : produce n ps s = .next t) :
    produce n ps { s with payload := m } = .next { t with payload := m } := by
  obtain ⟨hover, rfl⟩ | ⟨hfit, rfl⟩ := produce_cases h
  · exact produce_overshoots hover
  · rw [produce_fits (s := { s with payload := m }) hfit, commitAll_payload_update]
    rfl

/-- The trailing policy looks at no payload byte. -/
theorem trailing_payload_update (m : Memory) (h : trailing s = .next t) :
    trailing { s with payload := m } = .next { t with payload := m } := by
  obtain ⟨hpolicy, rfl⟩ | ⟨hpolicy, rfl⟩ := trailing_cases h <;> simp only [trailing, hpolicy] <;> rfl

theorem decodeStep_of_ok {i : Instr} (h : fetch s = .ok i) : decodeStep s = exec i s := by
  simp only [decodeStep, h]

/-- Whatever a fetch lacks, the step raises TooFewPixels (R103, R105). -/
theorem decodeStep_of_error {r : OpcodeReject} (h : fetch s = .error r) :
    decodeStep s = .next (raised .tooFewPixels s) := by
  cases r <;> simp only [decodeStep, h, raise_eq]

/-- Before the target, with a payload that fetches alike, the step does the same. -/
theorem decodeStep_payload_update (hfetch : fetch { s with payload := m } = fetch s)
    (h : decodeStep s = .next t) : decodeStep { s with payload := m } = .next { t with payload := m } := by
  cases hi : fetch s with
  | ok i =>
    obtain ⟨-, -, -, -, -, -, hne, -⟩ := fetch_ok hi
    rw [decodeStep_of_ok hi, exec_opcode hne] at h
    rw [decodeStep_of_ok (hfetch.trans hi), exec_opcode hne]
    exact produce_payload_update m h
  | error r =>
    rw [decodeStep_of_error hi] at h
    rw [decodeStep_of_error (hfetch.trans hi)]
    cases h
    rfl

theorem complete_of_exhausted (h : s.payload.remaining s.pos = 0) : complete s = .next (finish s) := if_pos h

/-- At the target a full END marker is consumed (R181). -/
theorem complete_of_marker {i : Instr} (hc : s.count = s.target) (hrem : s.payload.remaining s.pos ≠ 0)
    (h : fetchMarker s = .ok i) : complete s = .next (finish (advance 8 s)) := by
  have hi : i = .endMarker := by
    unfold fetchMarker at h
    split at h
    · cases h
    · exact (decodeMarker_ok h).1
  subst hi
  simp only [complete, if_neg hrem, h, exec_endMarker_atTarget hc]

/-- At the target anything else is the trailing policy's (R183). -/
theorem complete_of_no_marker {r : MarkerReject} (hrem : s.payload.remaining s.pos ≠ 0)
    (h : fetchMarker s = .error r) : complete s = trailing s := by
  simp only [complete, if_neg hrem, h]

/-- At the target, with a payload of the same length that shows the same marker or none, the step does the same. -/
theorem complete_payload_update (hc : s.count = s.target) (hlen : m.len = s.payload.len)
    (hfetch : fetchMarker { s with payload := m } = fetchMarker s) (h : complete s = .next t) :
    complete { s with payload := m } = .next { t with payload := m } := by
  have hrem : m.remaining s.pos = s.payload.remaining s.pos := congrArg (· - s.pos) hlen
  by_cases h0 : s.payload.remaining s.pos = 0
  · rw [complete_of_exhausted h0] at h
    rw [complete_of_exhausted (hrem.trans h0)]
    cases h
    rfl
  · have h0' : m.remaining s.pos ≠ 0 := fun e => h0 (hrem.symm.trans e)
    cases hi : fetchMarker s with
    | ok i =>
      rw [complete_of_marker hc h0 hi] at h
      rw [complete_of_marker (s := { s with payload := m }) hc h0' (hfetch.trans hi)]
      cases h
      rfl
    | error r =>
      rw [complete_of_no_marker h0 hi] at h
      rw [complete_of_no_marker h0' (hfetch.trans hi)]
      exact trailing_payload_update m h

end

/-- Settles O34: on either side of the target the bytes that may not change are all that the fetch reads, and nothing
after the fetch reads the payload. -/
theorem onlyTheOpcodesOwnBytesAreRead : Obligations.OnlyTheOpcodesOwnBytesAreRead := by
  intro s t m hstep hlen hmarker hopcode
  have hrun : s.running := (step_cases hstep).1
  have hrun' : State.running { s with payload := m } := hrun
  by_cases hc : s.count = s.target
  · rw [step_at_target hrun hc] at hstep
    rw [step_at_target hrun' hc]
    exact complete_payload_update hc hlen (fetchMarker_payload_congr hlen (hmarker hc)) hstep
  · rw [step_before_target hrun hc] at hstep
    rw [step_before_target hrun' hc]
    exact decodeStep_payload_update (fetch_payload_congr hlen (hopcode hc)) hstep

/-! ### Loading a payload -/

/-- A length is accepted when it is within every limit there is (R7, R51). -/
theorem acceptsLength_iff {c : Config} {len : Nat} :
    acceptsLength c len = true ↔ ∀ m, c.maxPayloadLen = some m → len ≤ m := by
  unfold acceptsLength
  cases c.maxPayloadLen <;> simp

/-- A load on a block that is not BUSY places the payload (R51, R253). -/
theorem hostAct_loadPayload {s : State} (h : s.fsm ≠ .busy) (bs : List Byte) :
    hostAct (.loadPayload bs) s = placePayload bs s := if_neg h

/-- Settles O47: the block accepts exactly the lengths within its limit (`acceptsLength_iff`). -/
theorem loadPlacesAnAcceptedPayload : Obligations.LoadPlacesAnAcceptedPayload := by
  intro s bs hfsm
  rw [hostAct_loadPayload hfsm]
  refine ⟨fun h => if_pos (acceptsLength_iff.mpr h), fun m hm hlong => if_neg fun h => ?_⟩
  have hle : bs.length ≤ m := acceptsLength_iff.mp h m hm
  omega

end Sys2Proof.Machine

/-! The proofs about the encoding (spec/30_encoding.md): tag bytes and their fields as numbers, which opcode a tag
selects, what each row of the opcode table decodes and encodes to, and the statements they settle. -/

namespace Sys2Proof

/-! ### Bytes and fields as numbers -/

theorem field_toNat (t : Byte) (lo w : Nat) : (field t lo w).toNat = t.toNat / 2 ^ lo % 2 ^ w := by
  rw [field, BitVec.extractLsb'_toNat, Nat.shiftRight_eq_div_pow]

/-- A concatenation of bit fields is a sum of numbers. -/
theorem toNat_append_eq_add {m n : Nat} (x : BitVec m) (y : BitVec n) :
    (x ++ y).toNat = x.toNat * 2 ^ n + y.toNat := by
  rw [BitVec.toNat_append, ← Nat.shiftLeft_add_eq_or_of_lt y.isLt, Nat.shiftLeft_eq]

/-- The tag of INDEX (R84). -/
theorem indexTag_toNat (i : Slot) : (0b00#2 ++ i).toNat = i.toNat :=
  (toNat_append_eq_add _ i).trans (Nat.zero_add _)

/-- The tag of DIFF (R85). -/
theorem diffTag_toNat (x y z : BitVec 2) :
    (0b01#2 ++ x ++ y ++ z).toNat = 0x40 + x.toNat * 16 + y.toNat * 4 + z.toNat := by
  simp only [toNat_append_eq_add, BitVec.toNat_ofNat]
  omega

/-- The tag of LUMA (R86). -/
theorem lumaTag_toNat (x : BitVec 6) : (0b10#2 ++ x).toNat = 0x80 + x.toNat := toNat_append_eq_add _ x

/-- The second byte of LUMA (R86). -/
theorem lumaByte_toNat (x y : BitVec 4) : (x ++ y).toNat = x.toNat * 16 + y.toNat := toNat_append_eq_add x y

/-- The tag of RUN (R87). -/
theorem runTag_toNat (x : BitVec 6) : (0b11#2 ++ x).toNat = 0xC0 + x.toNat := toNat_append_eq_add _ x

/-! ### Biased fields -/

/-- The range of the integers a field stands for (R9, R89). -/
theorem unbias_bounds {w : Nat} (bias : Nat) (f : BitVec w) :
    -(bias : Int) ≤ unbias bias f ∧ unbias bias f < 2 ^ w - bias := by
  have hf : (f.toNat : Int) < 2 ^ w := by exact_mod_cast f.isLt
  unfold unbias
  omega

/-- The field of a delta in range is the delta plus the bias (R94). -/
theorem rebias_toNat {w bias : Nat} {d : Int} (hlo : -(bias : Int) ≤ d) (hhi : d < 2 ^ w - bias) :
    ((rebias w bias d).toNat : Int) = d + bias := by
  have hpow : ((2 ^ w : Nat) : Int) = 2 ^ w := Int.natCast_pow 2 w
  have hlt : (d + bias).toNat < 2 ^ w := by omega
  rw [rebias, BitVec.toNat_ofNat, Nat.mod_eq_of_lt hlt]
  omega

theorem unbias_rebias {w bias : Nat} {d : Int} (hlo : -(bias : Int) ≤ d) (hhi : d < 2 ^ w - bias) :
    unbias bias (rebias w bias d) = d := by
  rw [unbias, rebias_toNat hlo hhi]
  omega

theorem rebias_unbias {w : Nat} (bias : Nat) (f : BitVec w) : rebias w bias (unbias bias f) = f := by
  simp [rebias, unbias]

/-! ### The operand ranges (R94) -/

theorem wellFormed_diff_iff {dr dg db : Int} : (Instr.diff dr dg db).wellFormed = true ↔
    -2 ≤ dr ∧ dr ≤ 1 ∧ -2 ≤ dg ∧ dg ≤ 1 ∧ -2 ≤ db ∧ db ≤ 1 := by
  simp [Instr.wellFormed, inRange, and_assoc]

theorem wellFormed_luma_iff {dg drg dbg : Int} : (Instr.luma dg drg dbg).wellFormed = true ↔
    -32 ≤ dg ∧ dg ≤ 31 ∧ -8 ≤ drg ∧ drg ≤ 7 ∧ -8 ≤ dbg ∧ dbg ≤ 7 := by
  simp [Instr.wellFormed, inRange, and_assoc]

theorem wellFormed_run_iff {k : Nat} : (Instr.run k).wellFormed = true ↔ 1 ≤ k ∧ k ≤ 62 := by
  simp [Instr.wellFormed]

/-! ### Which opcode a tag selects -/

/-- The tags of each opcode, as numbers (R90). -/
def Opcode.Owns : Opcode → Nat → Prop
  | .index, n => n ≤ 0x3F
  | .diff, n => 0x40 ≤ n ∧ n ≤ 0x7F
  | .luma, n => 0x80 ≤ n ∧ n ≤ 0xBF
  | .run, n => 0xC0 ≤ n ∧ n ≤ 0xFD
  | .rgb, n => n = 0xFE
  | .rgba, n => n = 0xFF

/-- No tag has two opcodes (R90). -/
theorem Opcode.Owns.unique {o o' : Opcode} {n : Nat} (h : o.Owns n) (h' : o'.Owns n) : o = o' := by
  cases o <;> cases o' <;> simp only [Opcode.Owns, reduceCtorEq] at h h' ⊢ <;> omega

/-- `t[7:6]`, the quarter of the byte values that the tag is in. -/
theorem field_top_eq_iff {t : Byte} {q : BitVec 2} : field t 6 2 = q ↔ t.toNat / 64 = q.toNat := by
  have ht := t.isLt
  rw [← BitVec.toNat_inj, field_toNat]
  omega

/-- The priority decode selects an opcode that has the tag (R81, R90). -/
theorem classify_owns (t : Byte) : (classify t).Owns t.toNat := by
  have ht := t.isLt
  simp only [classify, field_top_eq_iff]
  simp only [← BitVec.toNat_inj, BitVec.toNat_ofNat]
  repeat' split
  all_goals
    simp only [Opcode.Owns]
    omega

theorem classify_eq_iff {t : Byte} {o : Opcode} : classify t = o ↔ o.Owns t.toNat :=
  ⟨fun h => h ▸ classify_owns t, fun h => (classify_owns t).unique h⟩

/-! ### The fields of the bytes that an encoding puts together -/

theorem indexTag_owns (i : Slot) : Opcode.index.Owns (0b00#2 ++ i).toNat := by
  rw [indexTag_toNat]
  exact Nat.le_of_lt_succ i.isLt

theorem diffTag_owns (x y z : BitVec 2) : Opcode.diff.Owns (0b01#2 ++ x ++ y ++ z).toNat := by
  rw [diffTag_toNat, Opcode.Owns]
  omega

theorem lumaTag_owns (x : BitVec 6) : Opcode.luma.Owns (0b10#2 ++ x).toNat := by
  rw [lumaTag_toNat, Opcode.Owns]
  omega

/-- The fields 62 and 63 would give the tags of RGB and RGBA (R87). -/
theorem runTag_owns_iff (x : BitVec 6) : Opcode.run.Owns (0b11#2 ++ x).toNat ↔ x.toNat ≤ 61 := by
  rw [runTag_toNat, Opcode.Owns]
  omega

theorem field_indexTag (i : Slot) : field (0b00#2 ++ i) 0 6 = i := BitVec.extractLsb'_append_eq_right

theorem field_diffTag (x y z : BitVec 2) :
    field (0b01#2 ++ x ++ y ++ z) 4 2 = x ∧ field (0b01#2 ++ x ++ y ++ z) 2 2 = y ∧
      field (0b01#2 ++ x ++ y ++ z) 0 2 = z := by
  simp only [← BitVec.toNat_inj, field_toNat, diffTag_toNat]
  omega

theorem field_lumaTag (x : BitVec 6) : field (0b10#2 ++ x) 0 6 = x := BitVec.extractLsb'_append_eq_right

theorem field_lumaByte (x y : BitVec 4) : field (x ++ y) 4 4 = x ∧ field (x ++ y) 0 4 = y :=
  ⟨BitVec.extractLsb'_append_eq_left, BitVec.extractLsb'_append_eq_right⟩

theorem field_runTag (x : BitVec 6) : field (0b11#2 ++ x) 0 6 = x := BitVec.extractLsb'_append_eq_right

section
variable {t : Byte}

theorem indexTag_of_field (h : Opcode.index.Owns t.toNat) : 0b00#2 ++ field t 0 6 = t := by
  rw [Opcode.Owns] at h
  rw [← BitVec.toNat_inj, indexTag_toNat, field_toNat]
  omega

theorem diffTag_of_fields (h : Opcode.diff.Owns t.toNat) :
    0b01#2 ++ field t 4 2 ++ field t 2 2 ++ field t 0 2 = t := by
  rw [Opcode.Owns] at h
  rw [← BitVec.toNat_inj, diffTag_toNat, field_toNat, field_toNat, field_toNat]
  omega

theorem lumaTag_of_field (h : Opcode.luma.Owns t.toNat) : 0b10#2 ++ field t 0 6 = t := by
  rw [Opcode.Owns] at h
  rw [← BitVec.toNat_inj, lumaTag_toNat, field_toNat]
  omega

theorem lumaByte_of_fields (u : Byte) : field u 4 4 ++ field u 0 4 = u := by
  rw [← BitVec.toNat_inj, lumaByte_toNat, field_toNat, field_toNat]
  omega

theorem runTag_of_field (h : Opcode.run.Owns t.toNat) : 0b11#2 ++ field t 0 6 = t := by
  rw [Opcode.Owns] at h
  rw [← BitVec.toNat_inj, runTag_toNat, field_toNat]
  omega

end

/-! ### What each row of the opcode table decodes to -/

section
variable {t : Byte} (rest : List Byte)

theorem decodeOpcode_index (h : Opcode.index.Owns t.toNat) :
    decodeOpcode (t :: rest) = .ok (.index (field t 0 6)) := by
  simp only [decodeOpcode, classify_eq_iff.mpr h]

theorem decodeOpcode_diff (h : Opcode.diff.Owns t.toNat) :
    decodeOpcode (t :: rest) =
      .ok (.diff (unbias 2 (field t 4 2)) (unbias 2 (field t 2 2)) (unbias 2 (field t 0 2))) := by
  simp only [decodeOpcode, classify_eq_iff.mpr h]

theorem decodeOpcode_luma (h : Opcode.luma.Owns t.toNat) (u : Byte) :
    decodeOpcode (t :: u :: rest) =
      .ok (.luma (unbias 32 (field t 0 6)) (unbias 8 (field u 4 4)) (unbias 8 (field u 0 4))) := by
  simp only [decodeOpcode, classify_eq_iff.mpr h]

theorem decodeOpcode_run (h : Opcode.run.Owns t.toNat) :
    decodeOpcode (t :: rest) = .ok (.run ((field t 0 6).toNat + 1)) := by
  simp only [decodeOpcode, classify_eq_iff.mpr h]

theorem decodeOpcode_rgb (h : Opcode.rgb.Owns t.toNat) (r g b : Byte) :
    decodeOpcode (t :: r :: g :: b :: rest) = .ok (.rgb r g b) := by
  simp only [decodeOpcode, classify_eq_iff.mpr h]

theorem decodeOpcode_rgba (h : Opcode.rgba.Owns t.toNat) (r g b a : Byte) :
    decodeOpcode (t :: r :: g :: b :: a :: rest) = .ok (.rgba r g b a) := by
  simp only [decodeOpcode, classify_eq_iff.mpr h]

end

/-! ### Decoding what was encoded -/

section
variable (rest : List Byte)

theorem decodeOpcode_encode_index (i : Slot) : decodeOpcode (encode (.index i) ++ rest) = .ok (.index i) := by
  rw [encode, List.singleton_append, decodeOpcode_index rest (indexTag_owns i), field_indexTag]

theorem decodeOpcode_encode_diff {dr dg db : Int} (hw : (Instr.diff dr dg db).wellFormed = true) :
    decodeOpcode (encode (.diff dr dg db) ++ rest) = .ok (.diff dr dg db) := by
  obtain ⟨hr, hr', hg, hg', hb, hb'⟩ := wellFormed_diff_iff.mp hw
  obtain ⟨hfr, hfg, hfb⟩ := field_diffTag (rebias 2 2 dr) (rebias 2 2 dg) (rebias 2 2 db)
  rw [encode, List.singleton_append, decodeOpcode_diff rest (diffTag_owns _ _ _), hfr, hfg, hfb,
    unbias_rebias (bias := 2) hr (by omega), unbias_rebias (bias := 2) hg (by omega),
    unbias_rebias (bias := 2) hb (by omega)]

theorem decodeOpcode_encode_luma {dg drg dbg : Int} (hw : (Instr.luma dg drg dbg).wellFormed = true) :
    decodeOpcode (encode (.luma dg drg dbg) ++ rest) = .ok (.luma dg drg dbg) := by
  obtain ⟨hg, hg', hr, hr', hb, hb'⟩ := wellFormed_luma_iff.mp hw
  obtain ⟨hfr, hfb⟩ := field_lumaByte (rebias 4 8 drg) (rebias 4 8 dbg)
  rw [encode, List.cons_append, List.singleton_append, decodeOpcode_luma rest (lumaTag_owns _), field_lumaTag,
    hfr, hfb, unbias_rebias (bias := 32) hg (by omega), unbias_rebias (bias := 8) hr (by omega),
    unbias_rebias (bias := 8) hb (by omega)]

theorem decodeOpcode_encode_run {k : Nat} (hw : (Instr.run k).wellFormed = true) :
    decodeOpcode (encode (.run k) ++ rest) = .ok (.run k) := by
  obtain ⟨hk, hk'⟩ := wellFormed_run_iff.mp hw
  have hfield : (BitVec.ofNat 6 (k - 1)).toNat = k - 1 := by
    rw [BitVec.toNat_ofNat]
    omega
  have howns := (runTag_owns_iff (BitVec.ofNat 6 (k - 1))).mpr (by omega)
  rw [encode, List.singleton_append, decodeOpcode_run rest howns, field_runTag, hfield, Nat.sub_add_cancel hk]

theorem decodeMarker_encode_endMarker : decodeMarker (encode .endMarker ++ rest) = .ok .endMarker :=
  if_pos rfl

end

/-- Settles O4: row by row, the decoder finds in the encoding the fields that were put there. -/
theorem decodingAnEncodedInstructionGivesItBack : Obligations.DecodingAnEncodedInstructionGivesItBack := by
  intro i rest hw
  cases i with
  | rgb r g b => exact ⟨fun _ => decodeOpcode_rgb (t := 0xFE) rest rfl r g b, nofun⟩
  | rgba r g b a => exact ⟨fun _ => decodeOpcode_rgba (t := 0xFF) rest rfl r g b a, nofun⟩
  | index idx => exact ⟨fun _ => decodeOpcode_encode_index rest idx, nofun⟩
  | diff dr dg db => exact ⟨fun _ => decodeOpcode_encode_diff rest hw, nofun⟩
  | luma dg drg dbg => exact ⟨fun _ => decodeOpcode_encode_luma rest hw, nofun⟩
  | run k => exact ⟨fun _ => decodeOpcode_encode_run rest hw, nofun⟩
  | endMarker => exact ⟨fun h => absurd rfl h, fun _ => decodeMarker_encode_endMarker rest⟩

/-! ### Encoding what was decoded -/

section
variable {t : Byte}

theorem encode_decoded_index (h : Opcode.index.Owns t.toNat) : encode (.index (field t 0 6)) = [t] :=
  congrArg (fun b => [b]) (indexTag_of_field h)

theorem encode_decoded_diff (h : Opcode.diff.Owns t.toNat) :
    encode (.diff (unbias 2 (field t 4 2)) (unbias 2 (field t 2 2)) (unbias 2 (field t 0 2))) = [t] := by
  rw [encode, rebias_unbias, rebias_unbias, rebias_unbias, diffTag_of_fields h]

theorem encode_decoded_luma (h : Opcode.luma.Owns t.toNat) (u : Byte) :
    encode (.luma (unbias 32 (field t 0 6)) (unbias 8 (field u 4 4)) (unbias 8 (field u 0 4))) = [t, u] := by
  rw [encode, rebias_unbias, rebias_unbias, rebias_unbias, lumaTag_of_field h, lumaByte_of_fields]

theorem encode_decoded_run (h : Opcode.run.Owns t.toNat) : encode (.run ((field t 0 6).toNat + 1)) = [t] := by
  rw [encode, Nat.add_sub_cancel, BitVec.ofNat_toNat, BitVec.setWidth_eq, runTag_of_field h]

end

theorem wellFormed_decoded_diff (x y z : BitVec 2) :
    (Instr.diff (unbias 2 x) (unbias 2 y) (unbias 2 z)).wellFormed = true := by
  have hx := unbias_bounds 2 x
  have hy := unbias_bounds 2 y
  have hz := unbias_bounds 2 z
  rw [wellFormed_diff_iff]
  omega

theorem wellFormed_decoded_luma (x : BitVec 6) (y z : BitVec 4) :
    (Instr.luma (unbias 32 x) (unbias 8 y) (unbias 8 z)).wellFormed = true := by
  have hx := unbias_bounds 32 x
  have hy := unbias_bounds 8 y
  have hz := unbias_bounds 8 z
  rw [wellFormed_luma_iff]
  omega

theorem wellFormed_decoded_run {t : Byte} (h : Opcode.run.Owns t.toNat) :
    (Instr.run ((field t 0 6).toNat + 1)).wellFormed = true := by
  have hfield := (runTag_owns_iff (field t 0 6)).mp (by rwa [runTag_of_field h])
  rw [wellFormed_run_iff]
  omega

/-- Whatever the priority decode reads has operands in range, and its encoding is the bytes read. -/
theorem wellFormed_and_encode_of_decodeOpcode {bs : List Byte} {i : Instr} (h : decodeOpcode bs = .ok i) :
    i.wellFormed = true ∧ bs.take i.length = encode i := by
  obtain ⟨t, rest, rfl, hlen, hle, -⟩ := decodeOpcode_ok h
  rw [hlen, tagLength_classify] at hle
  have howns := classify_owns t
  cases hc : classify t with
  | index =>
    rw [hc] at howns
    rw [decodeOpcode_index rest howns] at h
    cases h
    exact ⟨rfl, (encode_decoded_index howns).symm⟩
  | diff =>
    rw [hc] at howns
    rw [decodeOpcode_diff rest howns] at h
    cases h
    exact ⟨wellFormed_decoded_diff _ _ _, (encode_decoded_diff howns).symm⟩
  | run =>
    rw [hc] at howns
    rw [decodeOpcode_run rest howns] at h
    cases h
    exact ⟨wellFormed_decoded_run howns, (encode_decoded_run howns).symm⟩
  | luma =>
    rw [hc] at hle howns
    match rest, hle with
    | u :: rest, _ =>
      rw [decodeOpcode_luma rest howns] at h
      cases h
      exact ⟨wellFormed_decoded_luma _ _ _, (encode_decoded_luma howns u).symm⟩
  | rgb =>
    rw [hc] at hle howns
    match rest, hle with
    | r :: g :: b :: rest, _ =>
      obtain rfl : t = 0xFE := BitVec.eq_of_toNat_eq howns
      rw [decodeOpcode_rgb rest howns] at h
      cases h
      exact ⟨rfl, rfl⟩
  | rgba =>
    rw [hc] at hle howns
    match rest, hle with
    | r :: g :: b :: a :: rest, _ =>
      obtain rfl : t = 0xFF := BitVec.eq_of_toNat_eq howns
      rw [decodeOpcode_rgba rest howns] at h
      cases h
      exact ⟨rfl, rfl⟩

/-- Settles O5: the bytes of each row are put together again from the fields read; the marker has no operand. -/
theorem encodingADecodedInstructionGivesItsBytes : Obligations.EncodingADecodedInstructionGivesItsBytes := by
  refine ⟨fun bs i h => ?_, fun bs i h => ?_⟩
  · obtain ⟨-, -, -, -, -, hne⟩ := decodeOpcode_ok h
    obtain ⟨hw, htake⟩ := wellFormed_and_encode_of_decodeOpcode h
    exact ⟨hw, hne, htake⟩
  · obtain ⟨rfl, htake⟩ := decodeMarker_ok h
    exact ⟨rfl, rfl, htake⟩

/-! ### The length from the tag -/

/-- `Length(t)` by its table (R92). -/
theorem tagLength_eq (t : Byte) :
    tagLength t = if t = 0xFE then 4 else if t = 0xFF then 5 else if t.toNat / 64 = 2 then 2 else 1 := by
  simp only [tagLength, field_top_eq_iff]
  rfl

/-- With a tag byte there, only operand bytes can be missing. -/
theorem decodeOpcode_cons_ne_exhausted (t : Byte) (rest : List Byte) :
    decodeOpcode (t :: rest) ≠ .error .exhausted := by
  cases hc : classify t with
  | index | diff | run => simp only [decodeOpcode, hc, ne_eq, reduceCtorEq, not_false_eq_true]
  | rgb | rgba | luma =>
    simp only [decodeOpcode, hc]
    split <;> nofun

theorem decodeOpcode_truncated_iff (t : Byte) (rest : List Byte) :
    decodeOpcode (t :: rest) = .error .truncated ↔ rest.length + 1 < tagLength t := by
  refine ⟨fun h => Nat.lt_of_not_le fun hle => ?_, fun hlt => ?_⟩
  · obtain ⟨i, hi⟩ := decodeOpcode_total hle
    rw [h] at hi
    cases hi
  · cases h : decodeOpcode (t :: rest) with
    | ok i =>
      obtain ⟨_, _, heq, hlen, hle, -⟩ := decodeOpcode_ok h
      cases heq
      rw [List.length_cons] at hle
      omega
    | error r =>
      cases r with
      | exhausted => exact absurd h (decodeOpcode_cons_ne_exhausted t rest)
      | truncated => rfl

/-- Settles O3: a decoded opcode has the length of its tag, and with that many bytes the decode succeeds. -/
theorem tagByteAloneGivesTheLength : Obligations.TagByteAloneGivesTheLength := by
  refine fun t rest => ⟨tagLength_eq t, fun i h => ?_, decodeOpcode_truncated_iff t rest⟩
  obtain ⟨_, _, heq, hlen, -, -⟩ := decodeOpcode_ok h
  cases heq
  exact hlen

/-! ### The assembler -/

/-- The byte of DIFF (R94). -/
theorem encode_diff_eq {dr dg db : Int} (hw : (Instr.diff dr dg db).wellFormed = true) :
    encode (.diff dr dg db) = [BitVec.ofInt 8 (0x40 + (dr + 2) * 16 + (dg + 2) * 4 + (db + 2))] := by
  obtain ⟨hr, hr', hg, hg', hb, hb'⟩ := wellFormed_diff_iff.mp hw
  have hfr := rebias_toNat (w := 2) (bias := 2) hr (by omega)
  have hfg := rebias_toNat (w := 2) (bias := 2) hg (by omega)
  have hfb := rebias_toNat (w := 2) (bias := 2) hb (by omega)
  refine congrArg (fun b => [b]) (BitVec.eq_of_toNat_eq ?_)
  rw [diffTag_toNat, BitVec.toNat_ofInt]
  omega

/-- The bytes of LUMA (R94). -/
theorem encode_luma_eq {dg drg dbg : Int} (hw : (Instr.luma dg drg dbg).wellFormed = true) :
    encode (.luma dg drg dbg) =
      [BitVec.ofInt 8 (0x80 + (dg + 32)), BitVec.ofInt 8 ((drg + 8) * 16 + (dbg + 8))] := by
  obtain ⟨hg, hg', hr, hr', hb, hb'⟩ := wellFormed_luma_iff.mp hw
  have hfg := rebias_toNat (w := 6) (bias := 32) hg (by omega)
  have hfr := rebias_toNat (w := 4) (bias := 8) hr (by omega)
  have hfb := rebias_toNat (w := 4) (bias := 8) hb (by omega)
  have htag : 0b10#2 ++ rebias 6 32 dg = BitVec.ofInt 8 (0x80 + (dg + 32)) := BitVec.eq_of_toNat_eq (by
    rw [lumaTag_toNat, BitVec.toNat_ofInt]
    omega)
  have hbyte : rebias 4 8 drg ++ rebias 4 8 dbg = BitVec.ofInt 8 ((drg + 8) * 16 + (dbg + 8)) :=
    BitVec.eq_of_toNat_eq (by
      rw [lumaByte_toNat, BitVec.toNat_ofInt]
      omega)
  rw [encode, htag, hbyte]

/-- The byte of RUN (R94). -/
theorem encode_run_eq {k : Nat} (hw : (Instr.run k).wellFormed = true) :
    encode (.run k) = [BitVec.ofNat 8 (0xC0 + (k - 1))] := by
  obtain ⟨hk, hk'⟩ := wellFormed_run_iff.mp hw
  refine congrArg (fun b => [b]) (BitVec.eq_of_toNat_eq ?_)
  rw [runTag_toNat, BitVec.toNat_ofNat, BitVec.toNat_ofNat]
  omega

/-- The byte of INDEX (R94). -/
theorem encode_index_eq (i : Slot) : encode (.index i) = [BitVec.ofNat 8 i.toNat] := by
  have hi := i.isLt
  refine congrArg (fun b => [b]) (BitVec.eq_of_toNat_eq ?_)
  rw [indexTag_toNat, BitVec.toNat_ofNat]
  omega

/-- A line of an instruction has its bytes where its operands are in range, and is refused where they are not. -/
theorem assembleLine_instr {i : Instr} {p : Prop} [Decidable p] {bs : List Byte} (hp : i.wellFormed = true ↔ p)
    (hbs : i.wellFormed = true → encode i = bs) : assembleLine (.instr i) = if p then some bs else none :=
  ite_congr (propext hp) (fun h => congrArg some (hbs (hp.mpr h))) fun _ => rfl

theorem assemble_cons_of_some {l : AsmLine} {ls : List AsmLine} {bs rest : List Byte}
    (hl : assembleLine l = some bs) (hls : assemble ls = some rest) : assemble (l :: ls) = some (bs ++ rest) := by
  simp only [assemble, hl, hls]

/-- One refused line refuses the program (R94). -/
theorem assemble_cons_of_none {l : AsmLine} {ls : List AsmLine} (h : assembleLine l = none ∨ assemble ls = none) :
    assemble (l :: ls) = none := by
  unfold assemble
  split
  · next hl hls => simp [hl, hls] at h
  · rfl

/-- Settles O6: the bytes of each line as numbers, in range exactly where `wellFormed` says so. -/
theorem assemblerRefusesOperandsOutOfRange : Obligations.AssemblerRefusesOperandsOutOfRange :=
  ⟨fun _ _ _ => rfl, fun _ _ _ _ => rfl, fun i => congrArg some (encode_index_eq i),
    fun _ _ _ => assembleLine_instr wellFormed_diff_iff encode_diff_eq,
    fun _ _ _ => assembleLine_instr wellFormed_luma_iff encode_luma_eq,
    fun _ => assembleLine_instr wellFormed_run_iff encode_run_eq,
    rfl, fun _ => rfl, rfl, fun _ _ _ _ => assemble_cons_of_some, fun _ _ => assemble_cons_of_none⟩

/-- Settles O1: each word is decoded by computation. -/
theorem wordsOfTheSpecDecode : Obligations.WordsOfTheSpecDecode := ⟨rfl, rfl, rfl, rfl, rfl, rfl, rfl⟩

end Sys2Proof

namespace Sys2Proof.Machine

/-! ### The map of all tag bytes -/

/-- The integer a biased field of a byte stands for, from the byte as a number. -/
theorem unbias_field (bias : Nat) (t : Byte) (lo w : Nat) :
    unbias bias (field t lo w) = ((t.toNat / 2 ^ lo % 2 ^ w : Nat) : Int) - bias := by
  rw [unbias, field_toNat]

/-- No step raises InvalidPixel (R216). -/
theorem step_keeps_err_ne_invalidPixel {s t : State} (hstep : step s = .next t) (h : s.err ≠ .invalidPixel) :
    t.err ≠ .invalidPixel := by
  obtain ⟨-, i, -, -, rfl⟩ | ⟨-, rfl⟩ | rfl | ⟨-, rfl⟩ | ⟨-, rfl⟩ := (step_cases hstep).2
  · simpa using h
  · simp
  · simp
  · exact h
  · exact h

/-- Settles O2: each range of tags belongs to one opcode, whose row gives the fields. -/
theorem everyTagByteSelectsOneOpcode : Obligations.EveryTagByteSelectsOneOpcode := by
  refine ⟨fun t x y z v rest => ⟨fun h => ?_, fun h h' => ?_, fun h h' => ?_, fun h h' => ?_,
    fun h => decodeOpcode_rgb _ h x y z, fun h => decodeOpcode_rgba rest h x y z v⟩,
    fun _ _ => step_keeps_err_ne_invalidPixel⟩
  · rw [decodeOpcode_index _ h]
    rfl
  · rw [decodeOpcode_diff _ ⟨h, h'⟩, unbias_field, unbias_field, unbias_field, Nat.pow_zero, Nat.div_one]
    rfl
  · have hx : x.toNat / 2 ^ 4 % 2 ^ 4 = x.toNat / 16 := by omega
    have ht : ((t.toNat / 2 ^ 0 % 2 ^ 6 : Nat) : Int) = (t.toNat : Int) - 0x80 := by omega
    rw [decodeOpcode_luma _ ⟨h, h'⟩, unbias_field, unbias_field, unbias_field, hx, ht, Nat.pow_zero, Nat.div_one]
    rfl
  · have hk : (field t 0 6).toNat + 1 = t.toNat - 0xBF := by
      rw [field_toNat]
      omega
    rw [decodeOpcode_run _ ⟨h, h'⟩, hk]

/-! ### The channel count and the colorspace -/

/-- `s` with another channel count and colorspace. -/
def State.withFormat (ch : Channels) (cs : Colorspace) (s : State) : State :=
  { s with hdrChannels := ch, hdrColorspace := cs }

/-- A step's answer with its next state, if there is one, changed by `f`. -/
def mapNext (f : State → State) : Result → Result
  | .next s => .next (f s)
  | .fault r => .fault r
  | .refused r => .refused r

section
variable (ch : Channels) (cs : Colorspace) {s : State}

theorem commitAll_withFormat (ps : List Pixel) (s : State) :
    commitAll ps (s.withFormat ch cs) = (commitAll ps s).withFormat ch cs := by
  induction ps generalizing s with
  | nil => rfl
  | cons p ps ih => exact ih (commit p s)

theorem produce_withFormat (n : Nat) (ps : List Pixel) (s : State) :
    produce n ps (s.withFormat ch cs) = mapNext (State.withFormat ch cs) (produce n ps s) := by
  by_cases hfit : s.count.toNat + ps.length ≤ s.target.toNat
  · rw [produce_fits hfit, produce_fits (s := s.withFormat ch cs) hfit, commitAll_withFormat]
    rfl
  · have hover : s.target.toNat < s.count.toNat + ps.length := Nat.lt_of_not_le hfit
    rw [produce_overshoots hover, produce_overshoots (s := s.withFormat ch cs) hover]
    rfl

theorem decodeStep_withFormat (s : State) :
    decodeStep (s.withFormat ch cs) = mapNext (State.withFormat ch cs) (decodeStep s) := by
  cases hi : fetch s with
  | ok i =>
    obtain ⟨-, -, -, -, -, -, hne, -⟩ := fetch_ok hi
    rw [decodeStep_of_ok hi, decodeStep_of_ok (s := s.withFormat ch cs) hi, exec_opcode hne, exec_opcode hne]
    exact produce_withFormat ch cs _ _ s
  | error r =>
    rw [decodeStep_of_error hi, decodeStep_of_error (s := s.withFormat ch cs) hi]
    rfl

theorem trailing_withFormat (s : State) :
    trailing (s.withFormat ch cs) = mapNext (State.withFormat ch cs) (trailing s) := by
  cases hpolicy : s.config.trailing <;> simp only [trailing, State.withFormat, hpolicy] <;> rfl

theorem complete_withFormat (hc : s.count = s.target) :
    complete (s.withFormat ch cs) = mapNext (State.withFormat ch cs) (complete s) := by
  by_cases h0 : s.payload.remaining s.pos = 0
  · rw [complete_of_exhausted h0, complete_of_exhausted (s := s.withFormat ch cs) h0]
    rfl
  · cases hi : fetchMarker s with
    | ok i =>
      rw [complete_of_marker hc h0 hi, complete_of_marker (s := s.withFormat ch cs) hc h0 hi]
      rfl
    | error r =>
      rw [complete_of_no_marker h0 hi, complete_of_no_marker (s := s.withFormat ch cs) h0 hi]
      exact trailing_withFormat ch cs s

end

/-- A decode whose host duty was broken is refused (R242). -/
theorem step_of_dutyBroken {s : State} {d : HostDuty} (h : s.dutyBroken = some d) :
    step s = .refused (.hostDutyBroken d) := by
  simp only [step, h]

/-- Only a BUSY decoder has a step (R100). -/
theorem step_of_not_busy {s : State} (hd : s.dutyBroken = none) (h : s.fsm ≠ .busy) :
    step s = .fault (.noStep s.fsm) := by
  simp only [step, hd]
  cases hf : s.fsm with
  | busy => exact absurd hf h
  | idle => rfl
  | done => rfl
  | error => rfl

/-- A step does the same with any channel count and colorspace (R93). -/
theorem step_withFormat (ch : Channels) (cs : Colorspace) (s : State) :
    step (s.withFormat ch cs) = mapNext (State.withFormat ch cs) (step s) := by
  cases hd : s.dutyBroken with
  | some d =>
    rw [step_of_dutyBroken hd, step_of_dutyBroken (s := s.withFormat ch cs) hd]
    rfl
  | none =>
    by_cases hf : s.fsm = .busy
    · have hrun : s.running := ⟨hf, hd⟩
      have hrun' : (s.withFormat ch cs).running := ⟨hf, hd⟩
      by_cases hc : s.count = s.target
      · rw [step_at_target hrun hc, step_at_target hrun' hc, complete_withFormat ch cs hc]
      · rw [step_before_target hrun hc, step_before_target hrun' hc, decodeStep_withFormat]
    · rw [step_of_not_busy hd hf, step_of_not_busy (s := s.withFormat ch cs) hd hf]
      rfl

/-- Settles O33: `step_withFormat`, for each of the three answers; what the host reads holds no colorspace. -/
theorem channelsAndColorspaceDoNotChangeDecoding : Obligations.ChannelsAndColorspaceDoNotChangeDecoding := by
  intro s ch cs
  have hanswer {r : Result} (h : step s = r) : step (s.withFormat ch cs) = mapNext (State.withFormat ch cs) r :=
    h ▸ step_withFormat ch cs s
  exact ⟨fun _ h => hanswer h, fun _ h => hanswer h, fun _ h => hanswer h, rfl, rfl⟩

end Sys2Proof.Machine

/-! The proofs about the dispatcher (spec/40_dispatch.md): the commit, what the fetch finds at `pos`, that a running
decoder always has a step, that the host's actions keep the invariant, and that every decode ends. -/

namespace Sys2Proof.Machine

/-! ### The commit and the opcodes' common end -/

/-- Settles O10: the slot written and every other slot by `cacheRead_commit`; the rest is the record a commit builds. -/
theorem commitWritesPrevOneSlotOutputAndCount : Obligations.CommitWritesPrevOneSlotOutputAndCount := fun p s =>
  ⟨by rw [cacheRead_commit, if_pos rfl], fun j hj => by rw [cacheRead_commit, if_neg hj.symm], rfl⟩

/-- Only RUN produces other than one pixel (R106). -/
theorem pixelsOf_length_eq_one {i : Instr} (hend : i ≠ .endMarker) (hrun : ∀ k, i ≠ .run k) (p : Pixel) (c : Cache) :
    (pixelsOf i p c).length = 1 := by
  cases i with
  | run k => exact absurd rfl (hrun k)
  | endMarker => exact absurd rfl hend
  | _ => rfl

/-- The common end of an opcode, as the whole next state (R107, R110). -/
theorem produce_eq (n : Nat) (ps : List Pixel) (s : State) :
    produce n ps s = if s.target.toNat < s.count.toNat + ps.length
      then .next { s with fsm := .error, err := .tooManyPixels }
      else .next { commitAll ps s with pos := s.pos + n } := by
  have hadvance : advance n (commitAll ps s) = { commitAll ps s with pos := s.pos + n } := by
    rw [advance, commitAll_pos]
  exact hadvance ▸ rfl

/-- Settles O13: every opcode ends in `produce` (`exec_opcode`), and one pixel fits wherever `count < target`. -/
theorem everyOpcodeCommitsItsPixelsOrOvershoots : Obligations.EveryOpcodeCommitsItsPixelsOrOvershoots := by
  intro i s hend
  rw [exec_opcode hend]
  refine ⟨produce_eq _ _ s, fun hw => pixelsOf_length hend hw _ _, fun hrun => ?_⟩
  have hone := pixelsOf_length_eq_one hend hrun s.prev s.cache
  refine ⟨hone, fun hlt => ⟨_, produce_fits (by omega), ?_, ?_⟩⟩
  · rw [advance_fsm, commitAll_fsm]
  · rw [advance_err, commitAll_err]

/-! ### What the fetch finds at `pos` -/

theorem Memory.readRange_of_lt {m : Memory} {a n : Nat} (h : m.len < a + n) : m.readRange a n = none :=
  if_neg (by omega)

/-- A byte is there only below the payload's length (R51). -/
theorem Memory.lt_of_readByte {m : Memory} {a : Nat} {t : Byte} (h : m.readByte a = some t) : a < m.len :=
  Nat.lt_of_not_le fun hle => by rw [Memory.readByte_of_le hle] at h; cases h

section
variable {s : State} {t : Byte} {bs : List Byte} {n : Nat} {i : Instr}

/-- The fetch reads just the opcode's own bytes, and finds the opcode that any longer read there decodes to (R101). -/
theorem fetch_of_readRange (hbs : s.payload.readRange s.pos n = some bs) (hi : decodeOpcode bs = .ok i) :
    fetch s = .ok i := by
  obtain ⟨t, rest, rfl, hlen, hle, -⟩ := decodeOpcode_ok hi
  have hn : (t :: rest).length = n := Memory.readRange_length hbs
  have hread := Memory.readRange_take hbs (k := i.length) (by omega)
  rw [hlen] at hread
  have hdecode := decodeOpcode_take hi
  rw [hlen] at hdecode
  simp only [fetch, Memory.readByte_of_readRange hbs, hread, hdecode]

/-- The completion check finds the marker that any longer read at `pos` starts with (R181). -/
theorem fetchMarker_of_readRange (hbs : s.payload.readRange s.pos n = some bs) (hi : decodeMarker bs = .ok i) :
    fetchMarker s = .ok i := by
  have htake := (decodeMarker_ok hi).2
  have hlen : min 8 bs.length = 8 := by rw [← List.length_take, htake]; rfl
  have hn : bs.length = n := Memory.readRange_length hbs
  have hread := Memory.readRange_take hbs (k := 8) (by omega)
  have hdecode : decodeMarker (bs.take 8) = decodeMarker bs := by
    simp only [decodeMarker, List.take_take, Nat.min_self]
  simp only [fetchMarker, hread, hdecode, hi]

/-- Where a marker is found, its 8 bytes are left. -/
theorem remaining_of_fetchMarker (h : fetchMarker s = .ok i) : s.payload.remaining s.pos ≠ 0 := by
  intro hrem
  have hend : s.payload.len < s.pos + 8 := by
    rw [Memory.remaining] at hrem
    omega
  rw [fetchMarker, Memory.readRange_of_lt hend] at h
  cases h

/-- No byte left: the fetch finds no tag (R103). -/
theorem fetch_of_exhausted (h : s.payload.len ≤ s.pos) : fetch s = .error .exhausted := by
  rw [fetch, Memory.readByte_of_le h]

/-- A tag with fewer bytes left than its length is a truncated opcode (R105). -/
theorem fetch_of_truncated (htag : s.payload.readByte s.pos = some t) (h : s.payload.len < s.pos + tagLength t) :
    fetch s = .error .truncated := by
  simp only [fetch, htag, Memory.readRange_of_lt h]

/-- A tag with all its bytes left is an opcode of its length (R90, R92). -/
theorem fetch_of_tag (htag : s.payload.readByte s.pos = some t) (h : s.pos + tagLength t ≤ s.payload.len) :
    ∃ i, fetch s = .ok i ∧ i.length = tagLength t := by
  obtain ⟨bs, hbs⟩ := Option.isSome_iff_exists.mp
    ((Memory.readRange_isSome s.payload s.pos (tagLength t)).trans (decide_eq_true h))
  have hlen := Memory.readRange_length hbs
  cases bs with
  | nil => exact absurd hlen.symm (Nat.ne_of_gt (tagLength_pos t))
  | cons t' rest =>
    obtain rfl : t' = t := Option.some.inj ((Memory.readByte_of_readRange hbs).symm.trans htag)
    obtain ⟨i, hi⟩ := decodeOpcode_total (t := t') (rest := rest) (Nat.le_of_eq hlen.symm)
    obtain ⟨-, hdecodedLength, -⟩ := tagByteAloneGivesTheLength t' rest
    exact ⟨i, fetch_of_readRange hbs hi, hdecodedLength i hi⟩

end

/-- Settles O24: the fetch and the completion check find what the longer read decodes to. -/
theorem stepRunsTheDecodedInstruction : Obligations.StepRunsTheDecodedInstruction := by
  intro s i n bs hrun hbs
  refine ⟨fun hc hi => ?_, fun hc hi => ?_⟩
  · rw [step_before_target hrun hc, decodeStep_of_ok (fetch_of_readRange hbs hi)]
  · have hfetch := fetchMarker_of_readRange hbs hi
    obtain rfl : i = .endMarker := (decodeMarker_ok hi).1
    rw [step_at_target hrun hc, complete_of_marker hc (remaining_of_fetchMarker hfetch) hfetch,
      exec_endMarker_atTarget hc]

/-- Settles O26: the fetch fails where bytes are missing; a tag that is there has one byte left. -/
theorem missingBytesAreTooFewPixels : Obligations.MissingBytesAreTooFewPixels := by
  intro s hrun hlt
  have hc : s.count ≠ s.target := fun e => Nat.lt_irrefl _ (e ▸ hlt)
  rw [step_before_target hrun hc]
  refine ⟨fun hend => decodeStep_of_error (fetch_of_exhausted (by omega)), fun t htag => ?_⟩
  have hpos := Memory.lt_of_readByte htag
  refine ⟨fun hshort => decodeStep_of_error (fetch_of_truncated htag (by omega)), fun hone => ?_⟩
  obtain ⟨i, hfetch, hlen⟩ := fetch_of_tag htag (by omega)
  exact ⟨i, hlen.trans hone, decodeStep_of_ok hfetch⟩

/-! ### A running decoder always has a step -/

/-- END before the target runs as `INDEX 0` (R184). -/
theorem exec_endMarker_beforeTarget {s : State} (h : s.count ≠ s.target) :
    exec .endMarker s = produce 1 [cacheRead 0 s] s := if_neg h

/-- Every instruction answers a next state. -/
theorem exec_next (i : Instr) (s : State) : ∃ t, exec i s = .next t := by
  by_cases hend : i = .endMarker
  · subst hend
    by_cases hc : s.count = s.target
    · exact ⟨_, exec_endMarker_atTarget hc⟩
    · exact exec_endMarker_beforeTarget hc ▸ produce_next _ _ s
  · exact exec_opcode hend s ▸ produce_next _ _ s

/-- The trailing policy answers a next state (R183). -/
theorem trailing_next (s : State) : ∃ t, trailing s = .next t := by
  cases h : s.config.trailing with
  | strict => exact ⟨raised .tooManyPixels s, by simp only [trailing, h, raise_eq]⟩
  | ignoreTrailing => exact ⟨finish s, by simp only [trailing, h]⟩

/-- Each branch of the completion check answers a next state (R180). -/
theorem complete_next {s : State} (hc : s.count = s.target) : ∃ t, complete s = .next t := by
  by_cases hrem : s.payload.remaining s.pos = 0
  · exact ⟨_, complete_of_exhausted hrem⟩
  · cases h : fetchMarker s with
    | ok i => exact ⟨_, complete_of_marker hc hrem h⟩
    | error r => exact complete_of_no_marker hrem h ▸ trailing_next s

/-- Whatever the fetch finds, the opcode branch answers a next state (R101, R103, R105). -/
theorem decodeStep_next (s : State) : ∃ t, decodeStep s = .next t := by
  cases h : fetch s with
  | ok i => exact decodeStep_of_ok h ▸ exec_next i s
  | error r => exact ⟨_, decodeStep_of_error h⟩

/-- A running decode has a next state (R100). -/
theorem step_next_of_running {s : State} (hrun : s.running) : ∃ t, step s = .next t := by
  by_cases hc : s.count = s.target
  · exact step_at_target hrun hc ▸ complete_next hc
  · exact step_before_target hrun hc ▸ decodeStep_next s

/-- Settles O30: each branch of a running step answers; outside BUSY there is none (`step_of_not_busy`). -/
theorem onlyABusyDecoderHasAStep : Obligations.OnlyABusyDecoderHasAStep :=
  ⟨fun _ => step_next_of_running, fun _ hbusy hmark => step_of_not_busy hmark hbusy⟩

/-! ### The host's actions keep the invariant -/

section
variable {s t : State}

/-- A block that is not BUSY is not marked (R242). -/
theorem Inv.dutyBroken_eq_none (hi : Inv s) (hbusy : s.fsm ≠ .busy) : s.dutyBroken = none :=
  Decidable.byContradiction fun hmark => hbusy (hi.markBusy hmark)

/-- Width times height is exact in 64 bits (R27). -/
theorem pixelTarget_toNat (w h : Dim) : (pixelTarget w h).toNat = w.toNat * h.toNat := by
  have hprod : w.toNat * h.toNat < 2 ^ 32 * 2 ^ 32 := Nat.mul_lt_mul'' w.isLt h.isLt
  rw [pixelTarget, BitVec.toNat_mul, BitVec.toNat_setWidth_of_le (by decide), BitVec.toNat_setWidth_of_le (by decide)]
  exact Nat.mod_eq_of_lt hprod

/-- The decode state at a start: no pixel yet (R241). -/
theorem decodeInv_start (h : Header) (s : State) : DecodeInv (start h s) where
  outLength := rfl
  countLe := Nat.zero_le _
  targetEq := pixelTarget_toNat h.width h.height
  prevEq := rfl
  cacheEq := rfl

theorem inv_start (hwf : s.payload.wf = true) (h : Header) : Inv (start h s) where
  payloadWf := hwf
  errIff := by simp
  decode _ := decodeInv_start h s
  cursor _ := Nat.zero_le _
  doneFull hd := by simp at hd
  markBusy _ := rfl

theorem inv_hardReset (hwf : s.payload.wf = true) : Inv (hardReset s) where
  payloadWf := hwf
  errIff := by simp [State.reset]
  decode := by simp [State.reset]
  cursor := by simp [State.reset]
  doneFull := by simp [State.reset]
  markBusy := by simp [State.reset]

theorem inv_breach (hi : Inv s) (hbusy : s.fsm = .busy) (d : HostDuty) : Inv (breach d s) := by
  rw [breach_eq]
  exact { hi with decode := fun h => { hi.decode h with }, markBusy := fun _ => hbusy }

theorem inv_placePayload {bs : List Byte} (hi : Inv s) (hbusy : s.fsm ≠ .busy) (h : placePayload bs s = .next t) :
    Inv t := by
  unfold placePayload at h
  split at h
  · cases h
    exact { hi with
      payloadWf := Memory.ofBytes_wf bs
      decode := fun h => { hi.decode h with }
      cursor := fun hb => absurd hb hbusy }
  · cases h

theorem inv_placeAndStart {hdr : Header} {bs : List Byte} (hi : Inv s) (h : placeAndStart hdr bs s = .next t) :
    Inv t := by
  unfold placeAndStart at h
  split at h
  · cases h
    exact inv_breach hi ‹_› _
  · rename_i hbusy
    split at h
    · rename_i s' hplace
      cases h
      exact inv_start (inv_placePayload hi hbusy hplace).payloadWf hdr
    all_goals cases h

/-- A header the parser refuses has an error (R192). -/
theorem parseHeader_error_ne_none {bs : List Byte} {e : ErrKind} (h : parseHeader bs = .error e) : e ≠ .none := by
  rintro rfl
  unfold parseHeader at h
  repeat' split at h
  all_goals cases h

theorem inv_headerError {e : ErrKind} (hi : Inv s) (he : e ≠ .none) (h : headerError e s = .next t) : Inv t := by
  unfold headerError at h
  split at h
  · split at h
    · cases h
      exact inv_breach hi ‹_› _
    · rename_i hbusy
      cases h
      exact inv_raised he hi.payloadWf (hi.dutyBroken_eq_none hbusy)
  · cases h
    exact hi

theorem inv_bootFile {file : List Byte} (hi : Inv s) (h : bootFile file s = .next t) : Inv t := by
  unfold bootFile at h
  split at h
  · exact inv_headerError hi (parseHeader_error_ne_none ‹_›) h
  · exact inv_placeAndStart hi h

/-- Whatever the host does, the invariant is kept (R253). -/
theorem inv_hostAct {a : HostAction} (hi : Inv s) (h : hostAct a s = .next t) : Inv t := by
  cases a with
  | hardReset =>
    cases h
    exact inv_hardReset hi.payloadWf
  | loadPayload bs =>
    by_cases hbusy : s.fsm = .busy
    · cases (if_pos hbusy).symm.trans h
      exact inv_breach hi hbusy _
    · exact inv_placePayload hi hbusy (hostAct_loadPayload hbusy bs ▸ h)
  | start hdr =>
    by_cases hbusy : s.fsm = .busy
    · cases (if_pos hbusy).symm.trans h
      exact inv_breach hi hbusy _
    · cases (if_neg hbusy).symm.trans h
      exact inv_start hi.payloadWf hdr
  | startFile file => exact inv_bootFile hi h

/-- Reset meets the invariant, and every step and host action keeps it. -/
theorem Reachable.inv (h : Reachable s) : Inv s := by
  induction h with
  | reset c => exact resetMeetsTheInvariant c
  | step s t _ hstep ih => exact stepKeepsTheInvariant s t ih hstep
  | host a s t _ hact ih => exact inv_hostAct ih hact

end

/-- Settles O38: by induction on how the state is reached (`Reachable.inv`). -/
theorem everyReachableStateIsSafe : Obligations.EveryReachableStateIsSafe := fun _ h =>
  ⟨h.inv, step_next_of_running⟩

/-! ### Every decode ends -/

/-- How many opcodes can still run: each takes a byte of those left and a pixel of those wanted (R111). -/
def State.opcodesLeft (s : State) : Nat := min (s.payload.len - s.pos) (s.target.toNat - s.count.toNat)

section
variable {s t : State}

/-- An opcode that runs takes a byte and adds a pixel (R101, R110). -/
theorem fetch_ok_progress {i : Instr} (h : fetch s = .ok i) :
    1 ≤ i.length ∧ 1 ≤ (pixelsOf i s.prev s.cache).length := by
  obtain ⟨t, bs, -, -, hdecode, hlen, hend, -⟩ := fetch_ok h
  exact ⟨hlen ▸ tagLength_pos t,
    (pixelsOf_length hend (wellFormed_and_encode_of_decodeOpcode hdecode).1 _ _).1⟩

/-- A step ends the decode, or takes at least one byte and adds at least one pixel (R111). -/
theorem step_ends_or_progresses (hstep : step s = .next t) :
    t.ended = true ∨
      (t.running ∧ s.count.toNat + 1 ≤ t.count.toNat ∧ t.count.toNat ≤ t.target.toNat ∧
        s.pos + 1 ≤ t.pos ∧ t.pos ≤ t.payload.len) := by
  obtain ⟨hrun, ⟨-, i, hfetch, hfit, rfl⟩ | ⟨-, rfl⟩ | rfl | ⟨-, rfl⟩ | ⟨-, rfl⟩⟩ := step_cases hstep
  · obtain ⟨-, -, -, -, -, -, -, hbytes⟩ := fetch_ok hfetch
    obtain ⟨hbyte, hpixel⟩ := fetch_ok_progress hfetch
    have hcount := commitAll_count_toNat hfit
    refine .inr ⟨⟨?_, ?_⟩, ?_, ?_, ?_, ?_⟩
    · simpa using hrun.1
    · simpa using hrun.2
    · rw [advance_count, hcount]; omega
    · rw [advance_count, advance_target, hcount, commitAll_target]; exact hfit
    · rw [advance_pos, commitAll_pos]; omega
    · rw [advance_pos, advance_payload, commitAll_pos, commitAll_payload]; exact hbytes
  all_goals exact .inl rfl

/-- A step ends the decode, or leaves fewer opcodes to run (R111). -/
theorem step_ends_or_opcodesLeft_lt (hstep : step s = .next t) :
    t.ended = true ∨ (t.running ∧ t.opcodesLeft < s.opcodesLeft) := by
  obtain hend | ⟨hrun, hcount, hcountLe, hpos, hposLe⟩ := step_ends_or_progresses hstep
  · exact .inl hend
  · obtain ⟨-, -, -, -, -, htarget, hpayload, -⟩ := stepKeepsHeaderTargetAndPayload s t hstep
    refine .inr ⟨hrun, ?_⟩
    rw [htarget] at hcountLe
    rw [hpayload] at hposLe
    rw [State.opcodesLeft, State.opcodesLeft, htarget, hpayload]
    omega

theorem run_succ_of_step (h : step s = .next t) (k : Nat) :
    Host.Core.run Sys2Proof.core (k + 1) s = Host.Core.run Sys2Proof.core k t := by
  have hcore : Sys2Proof.core.step s = .next t := h
  simp only [Host.Core.run, hcore]

/-- A running decode ends within one step more than there are opcodes that can still run, by induction on that bound. -/
theorem run_ends (hrun : s.running) :
    ∃ (n : Nat) (t : State), n ≤ s.opcodesLeft + 1 ∧ Host.Core.run Sys2Proof.core n s = .next t ∧ t.ended = true := by
  induction hleft : s.opcodesLeft using Nat.strongRecOn generalizing s with
  | _ left ih =>
    obtain ⟨t, hstep⟩ := step_next_of_running hrun
    obtain hend | ⟨hrun', hlt⟩ := step_ends_or_opcodesLeft_lt hstep
    · exact ⟨1, t, by omega, run_succ_of_step hstep 0, hend⟩
    · obtain ⟨n, u, hn, hrunN, hend⟩ := ih t.opcodesLeft (hleft ▸ hlt) hrun' rfl
      exact ⟨n + 1, u, by omega, (run_succ_of_step hstep n).trans hrunN, hend⟩

end

/-- Settles O41: a step makes progress (`step_ends_or_progresses`), so a decode ends (`run_ends`), from a start with all
of the payload and all pixels to come. -/
theorem everyDecodeEndsInBoundedSteps : Obligations.EveryDecodeEndsInBoundedSteps := by
  refine ⟨fun s _ hrun => ?_, fun s _ hrun => run_ends hrun, fun h s hi hbusy => ?_⟩
  · obtain ⟨t, hstep⟩ := step_next_of_running hrun
    exact ⟨t, hstep, step_ends_or_progresses hstep⟩
  · have hleft : (start h s).opcodesLeft = min s.payload.len (h.width.toNat * h.height.toNat) := by
      rw [← pixelTarget_toNat]
      rfl
    exact hleft ▸ run_ends (s := start h s) ⟨rfl, hi.dutyBroken_eq_none hbusy⟩

end Sys2Proof.Machine

/-! The proofs about the literal opcodes (spec/41_literal.md), with the rules they share with every opcode of one pixel:
what it commits, and what the step answers to a tag where bytes are missing or all pixels are there. -/

namespace Sys2Proof.Machine

/-! ### An opcode of one pixel before the target -/

theorem count_ne_target_of_lt {s : State} (h : s.count.toNat < s.target.toNat) : s.count ≠ s.target :=
  fun e => Nat.ne_of_lt h (congrArg BitVec.toNat e)

section
variable {s : State} {t : Byte} {i : Instr} {p : Pixel}

/-- With a pixel to go, an opcode of one pixel commits it and moves past its own bytes (R108, R110). -/
theorem exec_of_onePixel (hlt : s.count.toNat < s.target.toNat) (hend : i ≠ .endMarker)
    (hp : pixelsOf i s.prev s.cache = [p]) : exec i s = .next (s.withPixel p i.length) := by
  rw [exec_opcode hend, hp]
  exact produce_fits hlt

/-- The step on bytes that decode to an opcode of one pixel (R101). -/
theorem step_of_onePixel {n : Nat} {bs : List Byte} (hrun : s.running) (hlt : s.count.toNat < s.target.toNat)
    (hbs : s.payload.readRange s.pos n = some bs) (hi : decodeOpcode bs = .ok i)
    (hp : pixelsOf i s.prev s.cache = [p]) : step s = .next (s.withPixel p i.length) := by
  obtain ⟨-, -, -, -, -, hend⟩ := decodeOpcode_ok hi
  obtain ⟨hstep, -⟩ := stepRunsTheDecodedInstruction s i n bs hrun hbs
  rw [hstep (count_ne_target_of_lt hlt) hi, exec_of_onePixel hlt hend hp]

/-- The step on a tag whose opcode is cut off by the payload's end (R105). -/
theorem step_of_truncated (hrun : s.running) (hlt : s.count.toNat < s.target.toNat)
    (htag : s.payload.readByte s.pos = some t) (hshort : s.payload.len < s.pos + tagLength t) :
    step s = .next (raised .tooFewPixels s) := by
  rw [step_before_target hrun (count_ne_target_of_lt hlt), decodeStep_of_error (fetch_of_truncated htag hshort)]

/-! ### A tag after the last pixel -/

/-- A read does not start with a byte other than the one at its address. -/
theorem Memory.readRange_ne_of_readByte {m : Memory} {a n : Nat} {b : Byte} (h : m.readByte a = some t)
    (hne : t ≠ b) (bs : List Byte) : m.readRange a n ≠ some (b :: bs) :=
  fun hread => hne (Option.some.inj (h.symm.trans (Memory.readByte_of_readRange hread)))

/-- Where the next 8 bytes are not the END marker's, the completion check finds none (R181). -/
theorem fetchMarker_of_ne (h : s.payload.readRange s.pos 8 ≠ some endMarkerBytes) :
    fetchMarker s = .error .notMarker := by
  cases hbs : s.payload.readRange s.pos 8 with
  | none => simp only [fetchMarker, hbs]
  | some bs =>
    have htake : bs.take 8 = bs := List.take_of_length_le (Nat.le_of_eq (Memory.readRange_length hbs))
    have hne : bs.take 8 ≠ endMarkerBytes := fun e => h (hbs.trans (congrArg some (htake.symm.trans e)))
    simp only [fetchMarker, hbs, decodeMarker, if_neg hne]

/-- Under `Strict` a tag after the last pixel is TooManyPixels, unless a full END marker starts there (R183). -/
theorem step_of_trailing_strict (hrun : s.running) (hc : s.count = s.target) (hstrict : s.config.trailing = .strict)
    (htag : s.payload.readByte s.pos = some t) (hmarker : s.payload.readRange s.pos 8 ≠ some endMarkerBytes) :
    step s = .next (raised .tooManyPixels s) := by
  have hrem : s.payload.remaining s.pos ≠ 0 := Nat.sub_ne_zero_of_lt (Memory.lt_of_readByte htag)
  rw [step_at_target hrun hc, complete_of_no_marker hrem (fetchMarker_of_ne hmarker)]
  simp only [trailing, hstrict, raise_eq]

end

/-! ### RGB -/

/-- Settles O14: RGB is an opcode of one pixel, its tag asks for 4 bytes, and no END marker starts with that tag. -/
theorem rgbCommitsLiteralColourAndCarriedAlpha : Obligations.RgbCommitsLiteralColourAndCarriedAlpha := by
  intro s r g b
  refine ⟨fun hlt => ?_, fun hrun hlt hbs => ?_, fun hrun hlt htag hshort => ?_, fun hrun hc hstrict htag => ?_⟩
  · exact exec_of_onePixel (i := .rgb r g b) hlt nofun rfl
  · exact step_of_onePixel hrun hlt hbs (decodeOpcode_rgb (t := 0xFE) [] rfl r g b) rfl
  · exact step_of_truncated hrun hlt htag hshort
  · exact step_of_trailing_strict hrun hc hstrict htag (Memory.readRange_ne_of_readByte htag (by decide) _)

end Sys2Proof.Machine

/-! The proofs about the cache-index opcode (spec/42_index.md), with the one-byte read every opcode of one byte needs. -/

namespace Sys2Proof.Machine

/-! ### An opcode of one byte -/

/-- Where there is a tag byte, reading one byte from there gives it. -/
theorem Memory.readRange_one {m : Memory} {a : Nat} {t : Byte} (h : m.readByte a = some t) :
    m.readRange a 1 = some [t] := by
  obtain ⟨bs, hbs⟩ := Option.isSome_iff_exists.mp
    ((Memory.readRange_isSome m a 1).trans (decide_eq_true (Memory.lt_of_readByte h)))
  obtain ⟨t', rfl⟩ := List.length_eq_one_iff.mp (Memory.readRange_length hbs)
  obtain rfl : t' = t := Option.some.inj ((Memory.readByte_of_readRange hbs).symm.trans h)
  exact hbs

/-! ### INDEX -/

/-- The two top bits of an INDEX tag are 0, so the tag is its slot's number (R84). -/
theorem decodeOpcode_indexTag {t : Byte} (h : t.toNat ≤ 0x3F) (rest : List Byte) :
    decodeOpcode (t :: rest) = .ok (.index (BitVec.ofNat 6 t.toNat)) :=
  decodeOpcode_index rest h

/-- Settles O16: INDEX is an opcode of one pixel, the slot's as it is, and one byte, so its tag is never cut off. -/
theorem indexCommitsTheSlotContent : Obligations.IndexCommitsTheSlotContent := by
  intro s
  refine ⟨fun i hlt => ?_, fun t ht hrun htag => ⟨fun hlt => ?_, fun hc hstrict hmarker => ?_⟩⟩
  · exact exec_of_onePixel (i := .index i) hlt nofun rfl
  · exact step_of_onePixel hrun hlt (Memory.readRange_one htag) (decodeOpcode_indexTag ht []) rfl
  · exact step_of_trailing_strict hrun hc hstrict htag hmarker

end Sys2Proof.Machine

/-! The proofs about the delta opcodes (spec/43_delta.md), with the rule for a tag after the last pixel that cannot be
the first byte of an END marker. -/

namespace Sys2Proof.Machine

/-! ### The arithmetic of a channel -/

/-- `add8` wraps modulo 256 and never saturates (R9, R152). -/
theorem add8_toNat (a : Byte) (d : Int) : ((add8 a d).toNat : Int) = ((a.toNat : Int) + d) % 256 := by
  rw [add8, BitVec.toNat_ofInt]
  exact Int.toNat_of_nonneg (Int.emod_nonneg _ (by decide))

/-! ### The delta opcodes with a pixel to go -/

section
variable {s : State} {t : Byte}

theorem exec_diff (hlt : s.count.toNat < s.target.toNat) (dr dg db : Int) : exec (.diff dr dg db) s =
    .next (s.withPixel ⟨add8 s.prev.r dr, add8 s.prev.g dg, add8 s.prev.b db, s.prev.a⟩ 1) :=
  exec_of_onePixel (i := .diff dr dg db) hlt nofun rfl

theorem exec_luma (hlt : s.count.toNat < s.target.toNat) (dg drg dbg : Int) : exec (.luma dg drg dbg) s =
    .next (s.withPixel ⟨add8 s.prev.r (dg + drg), add8 s.prev.g dg, add8 s.prev.b (dg + dbg), s.prev.a⟩ 2) :=
  exec_of_onePixel (i := .luma dg drg dbg) hlt nofun rfl

/-! ### The tags of the delta opcodes -/

/-- The deltas of a DIFF tag, from the tag as a number (R85, R89). -/
theorem decodeOpcode_diffTag (h : Opcode.diff.Owns t.toNat) (rest : List Byte) : decodeOpcode (t :: rest) =
    .ok (.diff ((t.toNat / 16 % 4 : Nat) - 2) ((t.toNat / 4 % 4 : Nat) - 2) ((t.toNat % 4 : Nat) - 2)) := by
  rw [decodeOpcode_diff rest h, unbias_field, unbias_field, unbias_field, Nat.pow_zero, Nat.div_one]
  rfl

/-- The deltas of a LUMA tag and its second byte, from both as numbers (R86, R89). -/
theorem decodeOpcode_lumaTag (h : Opcode.luma.Owns t.toNat) (u : Byte) (rest : List Byte) :
    decodeOpcode (t :: u :: rest) =
      .ok (.luma ((t.toNat % 64 : Nat) - 32) ((u.toNat / 16 : Nat) - 8) ((u.toNat % 16 : Nat) - 8)) := by
  have hu : u.toNat / 2 ^ 4 % 2 ^ 4 = u.toNat / 16 := by omega
  rw [decodeOpcode_luma rest h, unbias_field, unbias_field, unbias_field, hu, Nat.pow_zero, Nat.div_one, Nat.div_one]
  rfl

/-- A LUMA tag asks for two bytes (R92). -/
theorem tagLength_lumaTag (h : Opcode.luma.Owns t.toNat) : tagLength t = 2 := by
  rw [Opcode.Owns] at h
  have hrgb : t ≠ 0xFE := by bv_omega
  have hrgba : t ≠ 0xFF := by bv_omega
  rw [tagLength_eq, if_neg hrgb, if_neg hrgba, if_pos (by omega)]

/-- Under `Strict` a tag of DIFF, LUMA, RUN, RGB or RGBA after the last pixel is TooManyPixels: no END marker starts
with it (R183). -/
theorem step_of_trailing_strict_of_pos (hrun : s.running) (hc : s.count = s.target)
    (hstrict : s.config.trailing = .strict) (htag : s.payload.readByte s.pos = some t) (ht : 0 < t.toNat) :
    step s = .next (raised .tooManyPixels s) := by
  have hne : t ≠ 0 := by
    rintro rfl
    exact Nat.lt_irrefl 0 ht
  exact step_of_trailing_strict hrun hc hstrict htag (Memory.readRange_ne_of_readByte htag hne _)

end

/-! ### The statements -/

/-- Settles O8: each lane of the committed pixel is an `add8` of its own channel. -/
theorem deltaLanesWrapModulo256 : Obligations.DeltaLanesWrapModulo256 := by
  intro s hlt
  refine ⟨fun dr dg db => ?_, fun dg drg dbg => ?_⟩
  · exact ⟨_, exec_diff hlt dr dg db, add8_toNat _ _, add8_toNat _ _, add8_toNat _ _, rfl, rfl, rfl⟩
  · exact ⟨_, exec_luma hlt dg drg dbg, add8_toNat _ _, add8_toNat _ _, add8_toNat _ _, rfl, rfl, rfl⟩

/-- Settles O17: DIFF is an opcode of one pixel and one byte, so its tag is never cut off. -/
theorem diffAddsSmallDeltas : Obligations.DiffAddsSmallDeltas := by
  intro s
  refine ⟨fun dr dg db hlt => exec_diff hlt dr dg db, fun t hlo hhi hrun htag =>
    ⟨fun hlt => ?_, fun hc hstrict => ?_⟩⟩
  · exact step_of_onePixel hrun hlt (Memory.readRange_one htag) (decodeOpcode_diffTag ⟨hlo, hhi⟩ []) rfl
  · exact step_of_trailing_strict_of_pos hrun hc hstrict htag (by omega)

/-- Settles O18: LUMA is an opcode of one pixel, and its tag asks for one byte more, which may be any. -/
theorem lumaAddsGreenRelativeDeltas : Obligations.LumaAddsGreenRelativeDeltas := by
  intro s
  refine ⟨fun dg drg dbg hlt => exec_luma hlt dg drg dbg, fun t hlo hhi hrun htag =>
    ⟨fun u hlt hbs => ?_, fun hlt hshort => ?_, fun hc hstrict => ?_⟩⟩
  · exact step_of_onePixel hrun hlt hbs (decodeOpcode_lumaTag ⟨hlo, hhi⟩ u []) rfl
  · exact step_of_truncated hrun hlt htag ((tagLength_lumaTag ⟨hlo, hhi⟩).symm ▸ hshort)
  · exact step_of_trailing_strict_of_pos hrun hc hstrict htag (by omega)

end Sys2Proof.Machine

/-! The proofs about the run-length opcode (spec/44_run.md), with what a RUN leaves in the cache and the count. -/

namespace Sys2Proof.Machine

/-! ### The commits of a RUN -/

/-- A RUN of `k + 1` is a commit of `prev` and a RUN of `k`: the second write of the slot repeats the first (R171). -/
theorem withRun_commit_prev (k : Nat) (s : State) : (commit s.prev s).withRun k = s.withRun (k + 1) := by
  unfold State.withRun
  congr 1
  case e_cache => exact Vector.set_set ..
  case e_out => rw [commit_out, commit_prev, List.append_assoc, List.singleton_append, List.replicate_succ]
  case e_count =>
    rw [commit_count]
    bv_omega

/-- The `k + 1` commits of `prev`, in order, and the cursor's move past one byte are the RUN (R109, R170). -/
theorem advance_commitAll_replicate_prev (k : Nat) (s : State) :
    advance 1 (commitAll (List.replicate (k + 1) s.prev) s) = s.withRun (k + 1) := by
  induction k generalizing s with
  | zero => rfl
  | succ k ih =>
    calc advance 1 (commitAll (List.replicate (k + 2) s.prev) s)
      _ = advance 1 (commitAll (List.replicate (k + 1) (commit s.prev s).prev) (commit s.prev s)) := rfl
      _ = (commit s.prev s).withRun (k + 1) := ih _
      _ = s.withRun (k + 2) := withRun_commit_prev _ s

section
variable {s : State} {k : Nat}

/-- A RUN that fits commits `prev` `k` times (R170). -/
theorem exec_run (hk : 1 ≤ k) (hfit : s.count.toNat + k ≤ s.target.toNat) :
    exec (.run k) s = .next (s.withRun k) := by
  obtain ⟨k, rfl⟩ := Nat.exists_eq_add_of_le' hk
  rw [← advance_commitAll_replicate_prev, exec_opcode (i := .run (k + 1)) nofun]
  exact produce_fits (by rw [pixelsOf, List.length_replicate]; exact hfit)

/-- A RUN that is longer than the pixels still wanted commits none (R107, R170). -/
theorem exec_run_overshoots (hover : s.target.toNat < s.count.toNat + k) :
    exec (.run k) s = .next (raised .tooManyPixels s) := by
  rw [exec_opcode (i := .run k) nofun]
  exact produce_overshoots (by rw [pixelsOf, List.length_replicate]; exact hover)

/-! ### The step on a RUN tag -/

/-- The length of a RUN tag, from the tag as a number (R87, R89). -/
theorem decodeOpcode_runTag {t : Byte} (h : Opcode.run.Owns t.toNat) (rest : List Byte) :
    decodeOpcode (t :: rest) = .ok (.run (t.toNat % 64 + 1)) := by
  have hfield : (field t 0 6).toNat = t.toNat % 64 := (field_toNat t 0 6).trans (congrArg (· % 64) (Nat.div_one _))
  rw [decodeOpcode_run rest h, hfield]

/-- Before the target, the step on a RUN tag is that RUN: one byte is never cut off (R101, R170). -/
theorem step_of_runTag {t : Byte} (hrun : s.running) (hlt : s.count.toNat < s.target.toNat)
    (htag : s.payload.readByte s.pos = some t) (h : Opcode.run.Owns t.toNat) :
    step s = exec (.run (t.toNat % 64 + 1)) s := by
  obtain ⟨hstep, -⟩ := stepRunsTheDecodedInstruction s _ 1 [t] hrun (Memory.readRange_one htag)
  exact hstep (count_ne_target_of_lt hlt) (decodeOpcode_runTag h [])

/-! ### The state after a RUN -/

/-- After a RUN the slot of `prev` holds `prev`, and every other slot what it held (R171). -/
theorem cacheRead_withRun (j : Slot) (k : Nat) (s : State) :
    cacheRead j (s.withRun k) = if pixelHash s.prev = j then s.prev else cacheRead j s :=
  cacheRead_commit j s.prev s

/-- Where the slot of `prev` holds `prev`, a RUN leaves the cache as it is (R171). -/
theorem withRun_cache_of_cacheRead_prev (h : cacheRead (pixelHash s.prev) s = s.prev) :
    (s.withRun k).cache = s.cache := by
  have hset := Vector.set_getElem_self (xs := s.cache) (pixelHash s.prev).isLt
  rw [cacheRead] at h
  rwa [h] at hset

/-- A RUN that fits counts without wrapping (R26). -/
theorem withRun_count_toNat (hfit : s.count.toNat + k ≤ s.target.toNat) :
    (s.withRun k).count.toNat = s.count.toNat + k := by
  have htarget := s.target.isLt
  rw [State.withRun, BitVec.toNat_add, BitVec.toNat_ofNat]
  omega

end

/-- The pixel a decode starts with has hash 53 (R21, R171). -/
theorem pixelHash_init : pixelHash Pixel.init = 53 := by decide

/-- Right after a start every slot holds the zero pixel (R22). -/
theorem cacheRead_start (j : Slot) (h : Header) (s : State) : cacheRead j (start h s) = Pixel.zero :=
  Vector.getElem_replicate _

/-! ### The statements -/

/-- Settles O19: a RUN is its commits of `prev`, or the overshoot, and a RUN tag holds its length. -/
theorem runRepeatsThePreviousPixel : Obligations.RunRepeatsThePreviousPixel := by
  intro s
  refine ⟨fun k hk => ⟨exec_run hk, fun _ hover => exec_run_overshoots hover⟩, fun t hlo hhi hrun htag =>
    ⟨fun hfit => ?_, fun hlt hover => ?_, fun hc hstrict => ?_⟩⟩
  · rw [step_of_runTag hrun (by omega) htag ⟨hlo, hhi⟩, exec_run (Nat.le_add_left 1 _) hfit]
  · rw [step_of_runTag hrun hlt htag ⟨hlo, hhi⟩]
    exact exec_run_overshoots hover
  · exact step_of_trailing_strict_of_pos hrun hc hstrict htag (by omega)

/-- Settles O22: a RUN that fits ends in `withRun`, whose cache is one write of `prev`; right after a start that write
is of `PINIT` over the zero pixel of slot 53, and `INDEX 53` commits what it finds. -/
theorem runWritesTheCacheOnce : Obligations.RunWritesTheCacheOnce := by
  intro s t k hk hfit hexec
  obtain rfl : s.withRun k = t := Host.Outcome.next.inj ((exec_run hk hfit).symm.trans hexec)
  refine ⟨?_, fun j hj => ?_, withRun_cache_of_cacheRead_prev, ?_⟩
  · rw [cacheRead_withRun, if_pos rfl]
  · rw [cacheRead_withRun, if_neg hj.symm]
  · rintro h s₀ rfl
    have hbefore : cacheRead 53 (start h s₀) = ⟨0, 0, 0, 0⟩ := cacheRead_start 53 h s₀
    have hafter : cacheRead 53 ((start h s₀).withRun k) = ⟨0, 0, 0, 255⟩ := by
      rw [cacheRead_withRun, start_prev, if_pos pixelHash_init]
      rfl
    refine ⟨pixelHash_init, hbefore, hafter, fun hlt => ⟨?_, ?_⟩⟩
    · rw [← hafter]
      exact exec_of_onePixel (i := .index 53) ((withRun_count_toNat hfit).symm ▸ hlt) nofun rfl
    · rw [← hbefore]
      exact exec_of_onePixel (i := .index 53) (by omega) nofun rfl

end Sys2Proof.Machine

/-! The proofs about the END marker and the completion check (spec/45_end.md), with the rule for a payload that holds
INDEX opcodes one after the other, which is what a marker placed too early is. -/

namespace Sys2Proof.Machine

/-! ### The completion check -/

/-- What the trailing policy does, as a choice between its two values (R183). -/
theorem trailing_eq_ite (s : State) :
    trailing s = if s.config.trailing = .ignoreTrailing then .next (finish s) else .next (raised .tooManyPixels s) := by
  cases h : s.config.trailing with
  | strict => simp only [trailing, h, raise_eq, reduceCtorEq, if_false]
  | ignoreTrailing => simp only [trailing, h, if_true]

/-- Settles O27: a byte that is left starts a full END marker (`complete_of_marker`) or falls to the trailing policy
(`complete_of_no_marker`). -/
theorem completionCheckBranches : Obligations.CompletionCheckBranches := by
  intro s hrun hc
  rw [step_at_target hrun hc]
  by_cases hrem : s.payload.len - s.pos = 0
  · rw [if_pos hrem]
    exact complete_of_exhausted hrem
  rw [if_neg hrem]
  by_cases hmarker : s.payload.readRange s.pos 8 = some endMarkerBytes
  · rw [complete_of_marker hc hrem (fetchMarker_of_readRange hmarker (decodeMarker_encode_endMarker []))]
    exact (if_pos hmarker).symm
  · rw [complete_of_no_marker hrem (fetchMarker_of_ne hmarker), trailing_eq_ite]
    exact (if_neg hmarker).symm

/-! ### The END marker -/

/-- Before the target every step commits an opcode's pixels or raises an error, so none ends DONE (R102, R184). -/
theorem step_before_target_not_done {s t : State} (hc : s.count ≠ s.target) (hstep : step s = .next t) :
    t.fsm ≠ .done := by
  obtain ⟨⟨hbusy, -⟩, ⟨-, _, -, -, rfl⟩ | ⟨-, rfl⟩ | rfl | ⟨hc', -⟩ | ⟨hc', -⟩⟩ := step_cases hstep
  · rw [advance_fsm, commitAll_fsm, hbusy]
    exact nofun
  · exact nofun
  · exact nofun
  · exact absurd hc' hc
  · exact absurd hc' hc

/-- Settles O20: at the target the step on the marker's bytes is `exec` of END; before it no step ends DONE. -/
theorem endMarkerIsConsumedAtTheTarget : Obligations.EndMarkerIsConsumedAtTheTarget := by
  refine fun s => ⟨fun hc => ⟨exec_endMarker_atTarget hc, fun hrun hbs => ?_⟩, fun hc _ hstep =>
    step_before_target_not_done hc hstep⟩
  obtain ⟨-, hstepAtTarget⟩ := stepRunsTheDecodedInstruction s .endMarker 8 _ hrun hbs
  exact (hstepAtTarget hc (decodeMarker_encode_endMarker [])).trans (exec_endMarker_atTarget hc)

/-! ### Images without pixels -/

/-- An image of width 0 or height 0 wants no pixel (R27, R185). -/
theorem pixelTarget_eq_zero {w h : Dim} (hzero : w = 0 ∨ h = 0) : pixelTarget w h = 0 := by
  refine BitVec.eq_of_toNat_eq ((pixelTarget_toNat w h).trans ?_)
  obtain rfl | rfl := hzero
  · exact Nat.zero_mul _
  · exact Nat.mul_zero _

/-- The bytes a read gives are left. -/
theorem Memory.le_len_of_readRange {m : Memory} {a n : Nat} {bs : List Byte} (h : m.readRange a n = some bs) :
    a + n ≤ m.len :=
  Nat.le_of_not_lt fun hlt => by rw [Memory.readRange_of_lt hlt] at h; cases h

/-- Settles O28: right after such a start `count = target = 0`, so the first step is the completion check, of which each
clause is a branch. -/
theorem zeroPixelImageCompletesAtOnce : Obligations.ZeroPixelImageCompletesAtOnce := by
  intro h s hzero _ hmark
  have htarget : (start h s).target = 0 := pixelTarget_eq_zero hzero
  have hcheck := completionCheckBranches (start h s) ⟨rfl, hmark⟩ htarget.symm
  refine ⟨htarget, fun hlen => ?_, fun hmarker => ?_, fun hlen hmarker => ?_⟩
  · exact hcheck.trans (if_pos hlen)
  · have hle := Memory.le_len_of_readRange hmarker
    have hlen : s.payload.len ≠ 0 := by omega
    exact (hcheck.trans (if_neg hlen)).trans (if_pos hmarker)
  · have htrailing := (hcheck.trans (if_neg hlen)).trans (if_neg hmarker)
    refine ⟨fun hstrict => ?_, fun hignore => htrailing.trans (if_pos hignore)⟩
    have hne : s.config.trailing ≠ .ignoreTrailing := hstrict ▸ nofun
    exact htrailing.trans (if_neg hne)

/-! ### INDEX opcodes one after the other -/

/-- The pixels that the INDEX opcodes of `slots` commit one after the other, from the cache before the first: each
commit is there for the next lookup (R140, R249). -/
def indexedPixels : List Slot → Cache → List Pixel
  | [], _ => []
  | i :: slots, cache =>
    let p := cache[i.toNat]'i.isLt
    p :: indexedPixels slots (cache.set (pixelHash p).toNat p (pixelHash p).isLt)

theorem indexedPixels_cons (i : Slot) (slots : List Slot) (s : State) :
    indexedPixels (i :: slots) s.cache =
      cacheRead i s :: indexedPixels slots (commit (cacheRead i s) s).cache := rfl

/-- The pixel found in a slot is still there after it is committed, whatever its hash (R140). -/
theorem cacheRead_commit_cacheRead (i : Slot) (s : State) : cacheRead i (commit (cacheRead i s) s) = cacheRead i s := by
  rw [cacheRead_commit, ite_self]

/-- Looking up one slot again and again commits its pixel each time. -/
theorem indexedPixels_replicate_append (k : Nat) (i : Slot) (slots : List Slot) (s : State) :
    indexedPixels (List.replicate k i ++ slots) s.cache =
      List.replicate k (cacheRead i s) ++
        indexedPixels slots (commitAll (List.replicate k (cacheRead i s)) s).cache := by
  induction k generalizing s with
  | zero => rfl
  | succ k ih =>
    rw [List.replicate_succ, List.cons_append, indexedPixels_cons, ih, cacheRead_commit_cacheRead]
    rfl

/-- Committing a pixel several times leaves the slots as committing it once does (R108). -/
theorem cacheRead_commitAll_replicate (j : Slot) (k : Nat) (p : Pixel) (s : State) :
    cacheRead j (commitAll (List.replicate (k + 1) p) s) = if pixelHash p = j then p else cacheRead j s := by
  induction k generalizing s with
  | zero => exact cacheRead_commit j p s
  | succ k ih =>
    rw [List.replicate_succ, commitAll, ih, cacheRead_commit]
    split <;> rfl

theorem commitAll_advance (ps : List Pixel) (n : Nat) (s : State) :
    commitAll ps (advance n s) = advance n (commitAll ps s) := by
  induction ps generalizing s with
  | nil => rfl
  | cons p ps ih => exact ih (commit p s)

theorem advance_advance (m n : Nat) (s : State) : advance m (advance n s) = advance (m + n) s := by
  rw [advance, advance_pos, Nat.add_assoc, Nat.add_comm n m]
  rfl

/-- Behind the first byte of a read stand the others. -/
theorem Memory.readRange_tail {m : Memory} {a n : Nat} {b : Byte} {bs : List Byte}
    (h : m.readRange a (n + 1) = some (b :: bs)) : m.readRange (a + 1) n = some bs := by
  have hle := Memory.le_len_of_readRange h
  rw [Memory.readRange, if_pos hle, List.range_succ_eq_map, List.map_cons, List.map_map] at h
  obtain ⟨-, htail⟩ := List.cons.inj (Option.some.inj h)
  rw [Memory.readRange, if_pos (by omega), ← htail]
  refine congrArg some (List.map_congr_left fun i _ => ?_)
  rw [Function.comp_apply, Nat.succ_eq_add_one, Nat.add_assoc, Nat.add_comm 1 i]

/-- With room for all their pixels, INDEX opcodes one after the other run to the last, one step and one byte each, by
induction on the opcodes (R101, R140). -/
theorem run_indexes {slots : List Slot} {s : State} (hrun : s.running)
    (hfit : s.count.toNat + slots.length ≤ s.target.toNat)
    (hbs : s.payload.readRange s.pos slots.length = some (slots.flatMap fun i => encode (.index i))) :
    Host.Core.run Sys2Proof.core slots.length s =
      .next (advance slots.length (commitAll (indexedPixels slots s.cache) s)) := by
  induction slots generalizing s with
  | nil => rfl
  | cons i slots ih =>
    rw [List.length_cons] at hfit hbs ⊢
    rw [List.flatMap_cons] at hbs
    have hstep : step s = .next (advance 1 (commit (cacheRead i s) s)) :=
      step_of_onePixel hrun (by omega) hbs (decodeOpcode_encode_index _ i) rfl
    have hcount : (commit (cacheRead i s) s).count.toNat = s.count.toNat + 1 :=
      commitAll_count_toNat (ps := [cacheRead i s]) (n := s.target) (by rw [List.length_singleton]; omega)
    have hroom : (advance 1 (commit (cacheRead i s) s)).count.toNat + slots.length ≤ s.target.toNat := by
      rw [advance_count, hcount]
      omega
    have hrest := ih (s := advance 1 (commit (cacheRead i s) s)) hrun hroom (Memory.readRange_tail hbs)
    rw [run_succ_of_step hstep, hrest, commitAll_advance, advance_advance]
    rfl

/-! ### A marker placed too early -/

/-- The slots that the marker's 8 bytes look up before the target (R184). -/
def earlyMarkerSlots : List Slot := List.replicate 7 0 ++ [1]

/-- The marker's bytes are the encodings of seven `INDEX 0` and one `INDEX 1` (R84, R88). -/
theorem endMarkerBytes_eq_indexes : endMarkerBytes = earlyMarkerSlots.flatMap fun i => encode (.index i) := by decide

/-- The pixels a marker placed too early commits (R184). -/
theorem indexedPixels_earlyMarkerSlots (s : State) :
    indexedPixels earlyMarkerSlots s.cache = List.replicate 7 (cacheRead 0 s) ++
      [if pixelHash (cacheRead 0 s) = 1 then cacheRead 0 s else cacheRead 1 s] := by
  rw [earlyMarkerSlots, indexedPixels_replicate_append, indexedPixels_cons, cacheRead_commitAll_replicate]
  rfl

/-- Settles O21: the marker's bytes are eight INDEX opcodes, which run to the last (`run_indexes`); the rest is what
eight commits leave. -/
theorem earlyMarkerRunsAsEightIndexOpcodes : Obligations.EarlyMarkerRunsAsEightIndexOpcodes := by
  intro s hrun hfit hbs
  have hruns := run_indexes (slots := earlyMarkerSlots) hrun hfit (endMarkerBytes_eq_indexes ▸ hbs)
  rw [indexedPixels_earlyMarkerSlots] at hruns
  refine ⟨_, hruns, ?_, ?_, ?_, ?_, ?_⟩
  · rw [advance_fsm, commitAll_fsm, hrun.1]
  · rw [advance_pos, commitAll_pos]
    rfl
  · rw [advance_count, commitAll_count]
    rfl
  · rw [advance_out, commitAll_out, List.append_assoc]
  · rw [advance_prev, commitAll_prev, List.getLastD_concat]

end Sys2Proof.Machine

/-! The proofs about the boundary (spec/48_boundary.md): each outcome of the header parser, what the host reads of a
decode, the packed bytes, and the booting of a file. -/

namespace Sys2Proof.Machine

/-! ### The header's bytes -/

/-- What a legal channel byte says (R191). -/
theorem legal_of_channelsOf {c : Byte} {ch : Channels} (hch : channelsOf c = some ch) :
    c = 3 ∧ ch = .rgb ∨ c = 4 ∧ ch = .rgba := by
  unfold channelsOf at hch
  split at hch
  · cases hch
    exact .inl ⟨‹_›, rfl⟩
  · split at hch
    · cases hch
      exact .inr ⟨‹_›, rfl⟩
    · cases hch

/-- What a legal colorspace byte says (R191). -/
theorem legal_of_colorspaceOf {cs : Byte} {col : Colorspace} (hcol : colorspaceOf cs = some col) :
    cs = 0 ∧ col = .srgb ∨ cs = 1 ∧ col = .linear := by
  unfold colorspaceOf at hcol
  split at hcol
  · cases hcol
    exact .inl ⟨‹_›, rfl⟩
  · split at hcol
    · cases hcol
      exact .inr ⟨‹_›, rfl⟩
    · cases hcol

theorem channelsOf_of_illegal {c : Byte} (hc : c ≠ 3 ∧ c ≠ 4) : channelsOf c = none :=
  (if_neg hc.1).trans (if_neg hc.2)

theorem colorspaceOf_of_illegal {cs : Byte} (hcs : cs ≠ 0 ∧ cs ≠ 1) : colorspaceOf cs = none :=
  (if_neg hcs.1).trans (if_neg hcs.2)

theorem channelsOf_of_legal {c : Byte} (hc : c = 3 ∨ c = 4) : ∃ ch, channelsOf c = some ch ∧ (ch = .rgb ↔ c = 3) := by
  obtain rfl | rfl := hc
  · exact ⟨.rgb, rfl, by decide⟩
  · exact ⟨.rgba, rfl, by decide⟩

theorem colorspaceOf_of_legal {cs : Byte} (hcs : cs = 0 ∨ cs = 1) :
    ∃ col, colorspaceOf cs = some col ∧ (col = .srgb ↔ cs = 0) := by
  obtain rfl | rfl := hcs
  · exact ⟨.srgb, rfl, by decide⟩
  · exact ⟨.linear, rfl, by decide⟩

section
variable {h : List Byte} {c cs : Byte} {ch : Channels} {col : Colorspace}

theorem headerByte_of_getElem? {i : Nat} (hc : h[i]? = some c) : headerByte h i = c := by
  rw [headerByte, List.getD_eq_getElem?_getD, hc, Option.getD_some]

/-- The most significant byte comes first (R191, R53). -/
theorem be32_toNat (h : List Byte) (i : Nat) :
    (be32 h i).toNat = (headerByte h i).toNat * 2 ^ 24 + (headerByte h (i + 1)).toNat * 2 ^ 16 +
      (headerByte h (i + 2)).toNat * 2 ^ 8 + (headerByte h (i + 3)).toNat := by
  rw [be32, toNat_append_eq_add, toNat_append_eq_add, toNat_append_eq_add]
  omega

/-! ### The header parser, outcome by outcome (R192) -/

theorem four_le_length_of_magic (hmagic : h.take 4 = magic) : 4 ≤ h.length := by
  have hlen : min 4 h.length = 4 := by rw [← List.length_take, hmagic]; rfl
  omega

theorem parseHeader_of_no_magic (hshort : h.length < 4) : parseHeader h = .error .tooShortHeader := if_pos hshort

theorem parseHeader_of_bad_magic (hlen : 4 ≤ h.length) (hmagic : h.take 4 ≠ magic) :
    parseHeader h = .error .invalidMagic := by
  rw [parseHeader, if_neg (by omega), if_pos hmagic]

theorem parseHeader_of_no_channels (hmagic : h.take 4 = magic) (hshort : h.length < 13) :
    parseHeader h = .error .tooShortHeader := by
  have hlen := four_le_length_of_magic hmagic
  rw [parseHeader, if_neg (by omega), if_neg (not_not_intro hmagic), if_pos hshort, ite_self]

theorem parseHeader_of_bad_channels (hmagic : h.take 4 = magic) (hc : h[12]? = some c) (hch : channelsOf c = none) :
    parseHeader h = .error .invalidChannels := by
  obtain ⟨hlen, -⟩ := List.getElem?_eq_some_iff.mp hc
  rw [parseHeader, if_neg (by omega), if_neg (not_not_intro hmagic), if_neg (by omega), if_neg (by omega),
    headerByte_of_getElem? hc, hch]

theorem parseHeader_of_no_colorspace (hmagic : h.take 4 = magic) (hc : h[12]? = some c)
    (hch : channelsOf c = some ch) (hshort : h.length = 13) : parseHeader h = .error .tooShortHeader := by
  rw [parseHeader, if_neg (by omega), if_neg (not_not_intro hmagic), if_neg (by omega), if_neg (by omega),
    headerByte_of_getElem? hc, hch]
  exact if_pos (by omega)

theorem parseHeader_of_bad_colorspace (hmagic : h.take 4 = magic) (hc : h[12]? = some c)
    (hch : channelsOf c = some ch) (hcs : h[13]? = some cs) (hcol : colorspaceOf cs = none) :
    parseHeader h = .error .invalidColorspace := by
  obtain ⟨hlen, -⟩ := List.getElem?_eq_some_iff.mp hcs
  rw [parseHeader, if_neg (by omega), if_neg (not_not_intro hmagic), if_neg (by omega), if_neg (by omega),
    headerByte_of_getElem? hc, hch, headerByte_of_getElem? hcs, hcol]
  exact if_neg (by omega)

theorem parseHeader_of_valid (hmagic : h.take 4 = magic) (hc : h[12]? = some c) (hch : channelsOf c = some ch)
    (hcs : h[13]? = some cs) (hcol : colorspaceOf cs = some col) :
    parseHeader h = .ok { width := be32 h 4, height := be32 h 8, channels := ch, colorspace := col } := by
  obtain ⟨hlen, -⟩ := List.getElem?_eq_some_iff.mp hcs
  rw [parseHeader, if_neg (by omega), if_neg (not_not_intro hmagic), if_neg (by omega), if_neg (by omega),
    headerByte_of_getElem? hc, hch, headerByte_of_getElem? hcs, hcol]
  exact if_neg (by omega)

/-- A header error is one of four kinds (R192). -/
theorem parseHeader_error_kind {e : ErrKind} (herr : parseHeader h = .error e) :
    e = .invalidMagic ∨ e = .tooShortHeader ∨ e = .invalidChannels ∨ e = .invalidColorspace := by
  unfold parseHeader at herr
  repeat' split at herr
  all_goals cases herr <;> decide

end

/-- Settles O48: one lemma per check, in the order of the offsets. -/
theorem headerChecksRunInOffsetOrder : Obligations.HeaderChecksRunInOffsetOrder := by
  intro h
  refine ⟨parseHeader_of_no_magic, parseHeader_of_bad_magic, parseHeader_of_no_channels, fun c hmagic hc =>
    ⟨fun hbad => parseHeader_of_bad_channels hmagic hc (channelsOf_of_illegal hbad), fun hlegal hshort => ?_,
      fun cs hlegal hcs => ?_⟩⟩
  all_goals obtain ⟨ch, hch, hrgb⟩ := channelsOf_of_legal hlegal
  · exact parseHeader_of_no_colorspace hmagic hc hch hshort
  · refine ⟨fun hbad => parseHeader_of_bad_colorspace hmagic hc hch hcs (colorspaceOf_of_illegal hbad), fun hgood => ?_⟩
    obtain ⟨col, hcol, hsrgb⟩ := colorspaceOf_of_legal hgood
    exact ⟨_, parseHeader_of_valid hmagic hc hch hcs hcol, hrgb, hsrgb⟩

/-- Settles O49: a header that parses has a legal byte 12 and a legal byte 13, and `be32` fields. -/
theorem headerDimensionsAreBigEndian : Obligations.HeaderDimensionsAreBigEndian := by
  intro b4 b5 b6 b7 b8 b9 b10 b11 c cs H hok
  cases hch : channelsOf c with
  | none => cases (parseHeader_of_bad_channels rfl rfl hch).symm.trans hok
  | some ch =>
    cases hcol : colorspaceOf cs with
    | none => cases (parseHeader_of_bad_colorspace rfl rfl hch rfl hcol).symm.trans hok
    | some col =>
      cases (parseHeader_of_valid rfl rfl hch rfl hcol).symm.trans hok
      exact ⟨be32_toNat _ 4, be32_toNat _ 8, legal_of_channelsOf hch, legal_of_colorspaceOf hcol⟩

/-! ### Booting a file -/

section
variable {s : State} {file : List Byte}

theorem hostAct_startFile_of_header_ok {H : Header} (hok : parseHeader (file.take 14) = .ok H) :
    hostAct (.startFile file) s = placeAndStart H (file.drop 14) s := by
  simp only [hostAct, bootFile, headerPart, hok, payloadPart]

theorem hostAct_startFile_of_header_error {e : ErrKind} (herr : parseHeader (file.take 14) = .error e) :
    hostAct (.startFile file) s = headerError e s := by
  simp only [hostAct, bootFile, headerPart, herr]

/-- Outside BUSY, an accepted load goes on to the start (R244). -/
theorem placeAndStart_of_next {H : Header} {bs : List Byte} {t : State} (hbusy : s.fsm ≠ .busy)
    (hload : hostAct (.loadPayload bs) s = .next t) : placeAndStart H bs s = .next (start H t) := by
  rw [hostAct_loadPayload hbusy] at hload
  rw [placeAndStart, if_neg hbusy, hload]

/-- Outside BUSY, a refused load stops the boot. -/
theorem placeAndStart_of_refused {H : Header} {bs : List Byte} {r : Refusal} (hbusy : s.fsm ≠ .busy)
    (hload : hostAct (.loadPayload bs) s = .refused r) : placeAndStart H bs s = .refused r := by
  rw [hostAct_loadPayload hbusy] at hload
  rw [placeAndStart, if_neg hbusy, hload]

/-- An integrated parser reports its error (R194). -/
theorem headerError_of_integrated (e : ErrKind) (hbusy : s.fsm ≠ .busy) (hint : s.config.headerIntegrated = true) :
    headerError e s = .next (raised e s) := by
  rw [headerError, if_pos hint, if_neg hbusy, raise_eq]

/-- A separate parser leaves the block alone (R194, notes/assumptions/9.md). -/
theorem headerError_of_separate (e : ErrKind) (hint : s.config.headerIntegrated = false) :
    headerError e s = .next s := by
  rw [headerError, hint]
  rfl

end

/-- Settles O50: a good header boots as a load (O47) and a start, a bad one as `headerError`. -/
theorem bootingAFileStartsOrReportsTheHeaderError : Obligations.BootingAFileStartsOrReportsTheHeaderError := by
  intro s file hbusy
  refine ⟨fun H hok => ?_, fun e herr => ?_⟩
  · obtain ⟨haccepted, hrefused⟩ := loadPlacesAnAcceptedPayload s (file.drop 14) hbusy
    rw [hostAct_startFile_of_header_ok hok]
    exact ⟨fun hle => placeAndStart_of_next hbusy (haccepted hle),
      fun m hm hlong => placeAndStart_of_refused hbusy (hrefused m hm hlong)⟩
  · rw [hostAct_startFile_of_header_error herr]
    exact ⟨headerError_of_integrated e hbusy, headerError_of_separate e, parseHeader_error_kind herr⟩

/-! ### What the host reads of a decode -/

section
variable {s : State}

/-- The pixels are observed in DONE (R112). -/
theorem observe_of_done (hmark : s.dutyBroken = none) (hdone : s.fsm = .done) : observe s = some (.ok s.out) := by
  simp only [observe, hmark, hdone]

/-- Pixels are observed in DONE alone (R112, R214). -/
theorem done_of_observe_ok {out : List Pixel} (hobs : observe s = some (.ok out)) : s.fsm = .done := by
  unfold observe at hobs
  split at hobs
  · cases hobs
  · cases hfsm : s.fsm with
    | done => rfl
    | _ => rw [hfsm] at hobs; cases hobs

/-- The buffer is the packed output in DONE (R195). -/
theorem readBuffer_of_done (hmark : s.dutyBroken = none) (hdone : s.fsm = .done) :
    readBuffer s = some (pack s.out s.hdrChannels) := by
  simp only [readBuffer, observe_of_done hmark hdone]

/-- There is no buffer without a successful decode (R197). -/
theorem readBuffer_of_not_done (hdone : s.fsm ≠ .done) : readBuffer s = none := by
  unfold readBuffer
  split
  · exact absurd (done_of_observe_ok ‹_›) hdone
  · rfl
  · rfl

end

/-- Settles O51: the buffer by `readBuffer_of_done` and `readBuffer_of_not_done`; `pack` takes one pixel at a time. -/
theorem packedBytesAreInScanOrder : Obligations.PackedBytesAreInScanOrder :=
  ⟨fun _ => readBuffer_of_done, fun _ => readBuffer_of_not_done, fun _ => rfl, fun _ _ => rfl, fun _ _ => rfl⟩

theorem Channels.bytes_eq (c : Channels) : c.bytes = if c = .rgb then 3 else 4 := by cases c <;> rfl

theorem packPixel_length (c : Channels) (p : Pixel) : (packPixel c p).length = c.bytes := by cases c <;> rfl

/-- Every pixel packs to as many bytes as there are channels (R195, R197). -/
theorem pack_length (out : List Pixel) (c : Channels) : (pack out c).length = out.length * c.bytes := by
  simp only [pack, List.length_flatMap, packPixel_length, List.map_const', List.sum_replicate_nat]

/-- Settles O42: in DONE the invariant has every pixel there, and each packs to `Channels.bytes` bytes. -/
theorem successfulDecodeHasEveryPixel : Obligations.SuccessfulDecodeHasEveryPixel := by
  refine ⟨fun s herror => readBuffer_of_not_done (by simp [herror]), fun s hi hdone => ?_⟩
  have hmark := hi.dutyBroken_eq_none (by simp [hdone])
  have hdec := hi.decode (.inr hdone)
  have hfull := hi.doneFull hdone
  have hout : s.out.length = s.target.toNat := hfull ▸ hdec.outLength
  have hpixels := hout.trans hdec.targetEq
  refine ⟨hfull, hout, hpixels, observe_of_done hmark hdone, _, readBuffer_of_done hmark hdone, ?_⟩
  rw [pack_length, hpixels, Channels.bytes_eq]

/-! ### The metadata -/

theorem Channels.format_eq (c : Channels) : c.format = if c = .rgb then .rgb8 else .rgba8 := by cases c <;> rfl

/-- Settles O54: `start` writes the header registers the metadata are read from, and a step keeps them (O32). -/
theorem metadataGivesDimensionsAndFormat : Obligations.MetadataGivesDimensionsAndFormat := by
  refine fun h s => ⟨?_, fun t hstep => ?_⟩
  · rw [readMetadata, start_hdrWidth, start_hdrHeight, start_hdrChannels, start_hdrColorspace, Channels.format_eq]
  · obtain ⟨-, hwidth, hheight, hchannels, hcolorspace, -⟩ := stepKeepsHeaderTargetAndPayload s t hstep
    rw [readMetadata, hwidth, hheight, hchannels, hcolorspace, ← readMetadata]

end Sys2Proof.Machine

/-! The proofs about the errors (spec/60_exceptions.md): what an erroring step writes, the order of a step's checks, and
what the host observes of a failed decode. -/

namespace Sys2Proof.Machine

/-! ### The step that raises an error -/

/-- Settles O29: of the five things a step can do (`step_cases`), the two that end in ERROR are `raised`. -/
theorem erroringStepWritesOnlyFsmAndErr : Obligations.ErroringStepWritesOnlyFsmAndErr := by
  intro s t hstep herror
  obtain ⟨⟨hbusy, -⟩, ⟨-, i, -, -, rfl⟩ | ⟨-, rfl⟩ | rfl | ⟨-, rfl⟩ | ⟨-, rfl⟩⟩ := step_cases hstep
  · rw [advance_fsm, commitAll_fsm, hbusy] at herror
    cases herror
  · exact ⟨rfl, .inl rfl⟩
  · exact ⟨rfl, .inr rfl⟩
  · cases herror
  · cases herror

/-! ### The order of the checks -/

section
variable {s t : State} {i : Instr}

/-- At the target an error is the completion check's: TooManyPixels, under `Strict` (R183, R215). -/
theorem tooManyPixels_and_strict_of_error_at_target (hc : s.count = s.target) (hstep : step s = .next t)
    (herror : t.fsm = .error) : t.err = .tooManyPixels ∧ s.config.trailing = .strict := by
  obtain ⟨hrun, -⟩ := step_cases hstep
  rw [step_at_target hrun hc] at hstep
  by_cases hrem : s.payload.remaining s.pos = 0
  · cases (complete_of_exhausted hrem).symm.trans hstep
    cases herror
  · cases hi : fetchMarker s with
    | ok i =>
      cases (complete_of_marker hc hrem hi).symm.trans hstep
      cases herror
    | error r =>
      obtain ⟨hstrict, rfl⟩ | ⟨-, rfl⟩ := trailing_cases ((complete_of_no_marker hrem hi).symm.trans hstep)
      · exact ⟨rfl, hstrict⟩
      · cases herror

/-- Before the target a byte that is missing at `pos` is TooFewPixels, the first check (R103, R215). -/
theorem step_of_no_byte (hrun : s.running) (hc : s.count ≠ s.target) (hnone : s.payload.readByte s.pos = none) :
    step s = .next (raised .tooFewPixels s) := by
  rw [step_before_target hrun hc]
  exact decodeStep_of_error (r := .exhausted) (by simp only [fetch, hnone])

/-- The step on a fetched opcode is the opcodes' common end, so the overshoot check is the last (R101, R107). -/
theorem step_of_fetch_ok (hrun : s.running) (hc : s.count ≠ s.target) (hi : fetch s = .ok i) :
    step s = produce i.length (pixelsOf i s.prev s.cache) s := by
  obtain ⟨-, -, -, -, -, -, hend, -⟩ := fetch_ok hi
  rw [step_before_target hrun hc, decodeStep_of_ok hi, exec_opcode hend]

end

/-- Settles O31: one rule per check, each where the checks before it have passed; an opcode that passes them all
commits. -/
theorem errorChecksRunInOrder : Obligations.ErrorChecksRunInOrder := by
  refine fun s hrun => ⟨fun hc => ?_, step_of_no_byte hrun, fun b hc htag => ⟨fun hshort => ?_, fun henough => ?_⟩⟩
  · obtain ⟨t, hstep⟩ := step_next_of_running hrun
    exact ⟨t, hstep, tooManyPixels_and_strict_of_error_at_target hc hstep⟩
  · rw [step_before_target hrun hc]
    exact decodeStep_of_error (fetch_of_truncated htag (by omega))
  · have hpos := Memory.lt_of_readByte htag
    obtain ⟨i, hi, -⟩ := fetch_of_tag htag (by omega)
    have hstep := step_of_fetch_ok hrun hc hi
    refine ⟨i, hi, fun hover => hstep.trans (produce_overshoots hover), fun hfit =>
      ⟨_, hstep.trans (produce_fits hfit), ?_, ?_⟩⟩
    · rw [advance_fsm, commitAll_fsm, hrun.1]
    · rw [advance_err, commitAll_err]

/-! ### What the host observes of a failed decode -/

section
variable {s : State}

/-- The kind alone is observed in ERROR (R112, R214). -/
theorem observe_of_error (hmark : s.dutyBroken = none) (herror : s.fsm = .error) : observe s = some (.err s.err) := by
  simp only [observe, hmark, herror]

/-- Before the end of a decode nothing is observed, marked or not (notes/assumptions/16.md). -/
theorem observe_of_not_ended (h : s.fsm = .idle ∨ s.fsm = .busy) : observe s = none := by
  cases hmark : s.dutyBroken with
  | some d => simp only [observe, hmark]
  | none => obtain hfsm | hfsm := h <;> simp only [observe, hmark, hfsm]

end

/-- Settles O52: `observe_of_error` names no register but `err`, and there is a buffer in DONE alone. -/
theorem errorObservationHoldsNoPixels : Obligations.ErrorObservationHoldsNoPixels := by
  refine ⟨fun _ => observe_of_done, fun s hmark herror => ⟨observe_of_error hmark herror, ?_⟩, fun s hfsm =>
    ⟨observe_of_not_ended hfsm, ?_⟩, fun s s' hmark hmark' herror herror' hkind => ?_⟩
  · exact readBuffer_of_not_done (by simp [herror])
  · exact readBuffer_of_not_done (by obtain h | h := hfsm <;> simp [h])
  · rw [observe_of_error hmark herror, observe_of_error hmark' herror', hkind]

end Sys2Proof.Machine

/-! The proofs about reset, start and the host (spec/70_reset_and_hazards.md): what the host's actions do to an idle
and to a BUSY block, the placed table word, and the INDEX right behind an opcode; then RGBA (spec/41_literal.md). -/

namespace Sys2Proof.Machine

/-! ### Reset and start -/

theorem hostAct_start {s : State} (hbusy : s.fsm ≠ .busy) (h : Header) : hostAct (.start h) s = .next (start h s) :=
  if_neg hbusy

/-- Settles O43: in IDLE nothing is observed (`observe_of_not_ended`), and an idle block has no step. -/
theorem hardwareResetLeavesIdle : Obligations.HardwareResetLeavesIdle := fun s =>
  ⟨hardReset s, rfl, rfl, rfl, rfl, observe_of_not_ended (.inl rfl), step_of_not_busy rfl nofun⟩

/-- Settles O44: the target is exact (`pixelTarget_toNat`) and the slots are cleared; the rest is the record `start`
builds. -/
theorem startInitialisesTheDecode : Obligations.StartInitialisesTheDecode := fun h s hbusy =>
  ⟨start h s, hostAct_start hbusy h, pixelTarget_toNat h.width h.height, fun i => cacheRead_start i h s, rfl⟩

/-- Settles O37: action by action, in `inv_hostAct`. -/
theorem hostActionsKeepTheInvariant : Obligations.HostActionsKeepTheInvariant := fun _ _ _ => inv_hostAct

/-! ### The host's actions on a BUSY block -/

section
variable {s t : State} {d : HostDuty}

theorem hostAct_start_of_busy (hbusy : s.fsm = .busy) (h : Header) :
    hostAct (.start h) s = .next (breach .startWhileBusy s) := if_pos hbusy

theorem hostAct_loadPayload_of_busy (hbusy : s.fsm = .busy) (bs : List Byte) :
    hostAct (.loadPayload bs) s = .next (breach .payloadChanged s) := if_pos hbusy

theorem placeAndStart_of_busy (hbusy : s.fsm = .busy) (h : Header) (bs : List Byte) :
    placeAndStart h bs s = .next (breach .payloadChanged s) := if_pos hbusy

/-- The error of an integrated parser comes as a `start` would, and marks the decode (notes/assumptions/9.md). -/
theorem headerError_of_busy (hbusy : s.fsm = .busy) (e : ErrKind) :
    headerError e s = .next (if s.config.headerIntegrated then breach .startWhileBusy s else s) := by
  by_cases hint : s.config.headerIntegrated = true
  · rw [headerError, if_pos hint, if_pos hbusy, if_pos hint]
  · rw [headerError, if_neg hint, if_neg hint]

/-! ### The mark stays -/

/-- The first mark stays (notes/assumptions/7.md). -/
theorem breach_of_marked (hmark : s.dutyBroken = some d) (d' : HostDuty) : breach d' s = s := by
  simp only [breach, hmark]

/-- A payload that is placed takes no mark away. -/
theorem placePayload_dutyBroken {bs : List Byte} (h : placePayload bs s = .next t) : t.dutyBroken = s.dutyBroken := by
  unfold placePayload at h
  split at h
  · cases h
    rfl
  · cases h

/-- Nor does a payload that is placed and started (R241). -/
theorem placeAndStart_keeps_mark {hdr : Header} {bs : List Byte} (hmark : s.dutyBroken = some d)
    (h : placeAndStart hdr bs s = .next t) : t.dutyBroken = some d := by
  by_cases hbusy : s.fsm = .busy
  · rw [placeAndStart_of_busy hbusy, breach_of_marked hmark] at h
    cases h
    exact hmark
  · rw [placeAndStart, if_neg hbusy] at h
    cases hplace : placePayload bs s with
    | next s' =>
      rw [hplace] at h
      cases h
      exact (placePayload_dutyBroken hplace).trans hmark
    | fault r | refused r =>
      rw [hplace] at h
      cases h

/-- Nor does a header error (R194). -/
theorem headerError_keeps_mark {e : ErrKind} (hmark : s.dutyBroken = some d) (h : headerError e s = .next t) :
    t.dutyBroken = some d := by
  unfold headerError at h
  rw [breach_of_marked hmark] at h
  split at h
  · split at h
    · cases h
      exact hmark
    · cases h
      exact hmark
  · cases h
    exact hmark

/-- Only hardware reset takes the mark away (R242). -/
theorem hostAct_keeps_mark {a : HostAction} (hmark : s.dutyBroken = some d) (ha : a ≠ .hardReset)
    (h : hostAct a s = .next t) : t.dutyBroken = some d := by
  cases a with
  | hardReset => exact absurd rfl ha
  | loadPayload bs =>
    by_cases hbusy : s.fsm = .busy
    · rw [hostAct_loadPayload_of_busy hbusy, breach_of_marked hmark] at h
      cases h
      exact hmark
    · rw [hostAct_loadPayload hbusy] at h
      exact (placePayload_dutyBroken h).trans hmark
  | start hdr =>
    by_cases hbusy : s.fsm = .busy
    · rw [hostAct_start_of_busy hbusy, breach_of_marked hmark] at h
      cases h
      exact hmark
    · rw [hostAct_start hbusy] at h
      cases h
      exact hmark
  | startFile file =>
    cases hparse : parseHeader (file.take 14) with
    | ok hdr => exact placeAndStart_keeps_mark hmark (hostAct_startFile_of_header_ok hparse ▸ h)
    | error e => exact headerError_keeps_mark hmark (hostAct_startFile_of_header_error hparse ▸ h)

/-- A marked decode is not observed (notes/assumptions/16.md). -/
theorem observe_of_marked (hmark : s.dutyBroken = some d) : observe s = none := by
  simp only [observe, hmark]

end

/-- Settles O46: on a BUSY block each action is a breach, which writes nothing but the mark (`breach_eq`). -/
theorem brokenHostDutyIsRefusedUntilReset : Obligations.BrokenHostDutyIsRefusedUntilReset := by
  refine ⟨fun s hbusy => ⟨fun h => ?_, fun bs => ?_, fun file H hok => ?_, fun file e herr => ?_⟩, fun s d hmark =>
    ⟨step_of_dutyBroken hmark, observe_of_marked hmark, fun a t ha hact => hostAct_keeps_mark hmark ha hact⟩⟩
  · rw [hostAct_start_of_busy hbusy, breach_eq]
  · rw [hostAct_loadPayload_of_busy hbusy, breach_eq]
  · rw [hostAct_startFile_of_header_ok hok, placeAndStart_of_busy hbusy, breach_eq]
  · rw [hostAct_startFile_of_header_error herr, headerError_of_busy hbusy, breach_eq]

/-! ### A placed table word -/

/-- A table word has 8 bytes. -/
theorem tableBytes_length (nbits w : Nat) : (tableBytes nbits w).length = 8 := by
  rw [tableBytes, List.length_map, List.length_range]

section
variable {s : State} {bs : List Byte}

theorem placeInstruction_of_not_busy (hbusy : s.fsm ≠ .busy) : placeInstruction bs s =
    { start (placementHeader (decide (bs = endMarkerBytes))) s with
      payload := Memory.ofBytes bs, dutyBroken := none } := if_neg hbusy

theorem running_placeInstruction (hbusy : s.fsm ≠ .busy) : (placeInstruction bs s).running := by
  rw [placeInstruction_of_not_busy hbusy]
  exact ⟨rfl, rfl⟩

/-- The placed bytes stand at the cursor. -/
theorem readRange_placeInstruction (hbusy : s.fsm ≠ .busy) :
    (placeInstruction bs s).payload.readRange (placeInstruction bs s).pos bs.length = some bs := by
  rw [placeInstruction_of_not_busy hbusy, start_pos, Memory.readRange_ofBytes, Nat.zero_add, if_pos (Nat.le_refl _),
    List.drop_zero, List.take_length]

/-- The END marker is placed at its target, any opcode before it. -/
theorem placeInstruction_count_eq_target_iff (hbusy : s.fsm ≠ .busy) :
    (placeInstruction bs s).count = (placeInstruction bs s).target ↔ bs = endMarkerBytes := by
  rw [placeInstruction_of_not_busy hbusy, start_count, start_target]
  by_cases hmarker : bs = endMarkerBytes
  · rw [decide_eq_true hmarker]
    exact ⟨fun _ => hmarker, fun _ => by decide⟩
  · rw [decide_eq_false hmarker]
    exact ⟨fun h => absurd h (by decide), fun h => absurd h hmarker⟩

end

/-- The two ways a table word decodes: as the END marker, of all its 8 bytes, or as an opcode. -/
theorem decodeTableWord_cases {nbits w : Nat} {i : Instr} (h : decodeTableWord nbits w = some i) :
    (tableBytes nbits w = endMarkerBytes ∧ decodeMarker (tableBytes nbits w) = .ok i) ∨
    (tableBytes nbits w ≠ endMarkerBytes ∧ decodeOpcode (tableBytes nbits w) = .ok i) := by
  have htake : (tableBytes nbits w).take 8 = tableBytes nbits w :=
    List.take_of_length_le (Nat.le_of_eq (tableBytes_length nbits w))
  unfold decodeTableWord at h
  split at h
  · rename_i hi
    cases h
    exact .inl ⟨htake.symm.trans (decodeMarker_ok hi).2, hi⟩
  · rename_i hnot
    have hne : tableBytes nbits w ≠ endMarkerBytes := by
      intro heq
      rw [decodeMarker, htake, if_pos heq] at hnot
      cases hnot
    split at h
    · cases h
      exact .inr ⟨hne, ‹_›⟩
    · cases h
    · cases h

/-- Settles O25: the word's bytes stand at the cursor of a running decode, so the step runs what they decode to (O24). -/
theorem placedWordIsTheNextInstruction : Obligations.PlacedWordIsTheNextInstruction := by
  intro s nbits w i hbusy hword
  have htarget := placeInstruction_count_eq_target_iff (bs := tableBytes nbits w) hbusy
  obtain ⟨hopcode, hmarker⟩ := stepRunsTheDecodedInstruction (placeInstruction (tableBytes nbits w) s) i _ _
    (running_placeInstruction hbusy) (readRange_placeInstruction hbusy)
  obtain ⟨heq, hi⟩ | ⟨hne, hi⟩ := decodeTableWord_cases hword
  · exact hmarker (htarget.mpr heq) hi
  · exact hopcode (fun hc => hne (htarget.mp hc)) hi

/-! ### The INDEX right behind an opcode -/

/-- After one commit or more, `prev` stands in the slot of its hash, by induction on the commits (R108). -/
theorem cacheRead_prev_commitAll {ps : List Pixel} (hne : ps ≠ []) (s : State) :
    cacheRead (pixelHash (commitAll ps s).prev) (commitAll ps s) = (commitAll ps s).prev := by
  induction ps generalizing s with
  | nil => exact absurd rfl hne
  | cons p ps ih =>
    cases ps with
    | nil => exact (cacheRead_commit (pixelHash p) p s).trans (if_pos rfl)
    | cons q qs => exact ih (List.cons_ne_nil q qs) (commit p s)

/-- Settles O23: the opcode's commits leave `prev` in its slot and a pixel to go, so the INDEX commits what it reads. -/
theorem nextIndexSeesTheLastCommit : Obligations.NextIndexSeesTheLastCommit := by
  intro i s t hw hend hlt hexec
  have hfit := Nat.le_of_lt hlt
  have hne : pixelsOf i s.prev s.cache ≠ [] := List.ne_nil_of_length_pos (pixelsOf_length hend hw _ _).1
  rw [exec_opcode hend, produce_fits hfit] at hexec
  cases hexec
  have hread := cacheRead_prev_commitAll hne s
  refine ⟨hread, exec_of_onePixel (i := .index _) ?_ nofun (congrArg (fun p => [p]) hread)⟩
  rw [advance_count, advance_target, commitAll_target, commitAll_count_toNat hfit]
  exact hlt

/-! ### RGBA -/

/-- Settles O15: RGBA is an opcode of one pixel, its tag asks for 5 bytes, and no END marker starts with that tag. -/
theorem rgbaCommitsFourLiteralChannels : Obligations.RgbaCommitsFourLiteralChannels := by
  intro s r g b a
  refine ⟨fun hlt => ?_, fun hrun hlt hbs => ?_, fun hrun hlt htag hshort => ?_, fun hrun hc hstrict htag => ?_⟩
  · exact exec_of_onePixel (i := .rgba r g b a) hlt nofun rfl
  · exact step_of_onePixel hrun hlt hbs (decodeOpcode_rgba (t := 0xFF) [] rfl r g b a) rfl
  · exact step_of_truncated hrun hlt htag hshort
  · exact step_of_trailing_strict_of_pos hrun hc hstrict htag (by decide)

end Sys2Proof.Machine
